-- ==== Sys2Proof/Word.lean ====
section
/-!
DEFINITION. The plain types of the machine: bytes, words, register and key numbers, intensities, and the
64 x 32 grid both framebuffers are made of (00_scope.md R7, R8; 10_state.md).
-/

namespace Sys2Proof

/-- An 8-bit register value or memory byte (00_scope.md R8). -/
abbrev Byte := BitVec 8

/-- A 16-bit value: an instruction word, PC, I, a stack entry (00_scope.md R8). -/
abbrev Word := BitVec 16

/-- The number of a general register, 0..15 for V0..VF (10_state.md R20). -/
abbrev Reg := Fin 16

/-- A key id, 0x0..0xF (10_state.md R36). -/
abbrev KeyId := Fin 16

/-- An intensity of the visual framebuffer: the bits of an IEEE 754 binary64 value (44_display.md R183).
The values in [0.0, 1.0] are exactly the bit patterns up to that of 1.0. -/
abbrev Intensity := BitVec 64

/-- 64 columns of 32 rows: `g[x][y]` is column `x`, row `y` (10_state.md R37, R38). -/
abbrev Grid (α : Type) := Vector (Vector α 32) 64

/-- VF, the register that doubles as the flag register (10_state.md R21). -/
abbrev vf : Reg := 15

end Sys2Proof
end

