-- ==== Sys2Proof/Config.lean ====
section
/-!
DEFINITION. The parameters of the machine (00_scope.md R6) and the one free value, the random byte.
IPS and EPSILON are not here: no rule of the block reads them (00_scope.md R5, R6; 44_display.md R184).
-/

namespace Sys2Proof

/-- RESERVED_WRITE_POLICY (00_scope.md R6, 20_memory.md R56). -/
inductive ReservedWritePolicy where
  /-- A program's store at or below 0x1FF raises ReservedWrite (the default). -/
  | fault
  /-- Such a store is performed like any other. -/
  | write
deriving DecidableEq, Repr

/-- The parameters a machine is built with (00_scope.md R6). They are fixed for the machine: no instruction and
no host action writes them. -/
structure Config where
  /-- STACK_LIMIT: `none` is unbounded (10_state.md R31). -/
  stackLimit : Option Nat
  /-- RESERVED_WRITE_POLICY (20_memory.md R56). -/
  reservedWrite : ReservedWritePolicy
  /-- FONT: the 80 bytes written at 0x000 at construction (10_state.md R27, 70_reset_and_hazards.md R271). -/
  font : Vector Byte 80
  /-- DECAY_FACTOR, a value in [0, 1] (44_display.md R182). -/
  decayFactor : Intensity
deriving DecidableEq, Repr

/-- The default font of 10_state.md R27, glyphs 0 to 7, five rows a glyph. PRESUMED: the spec supplies the bytes
from general knowledge (92_eei_decisions.md D11; log entry 7); unsafe for claims about the font's pixels. -/
def Config.fontLow : List Byte :=
  [0xF0, 0x90, 0x90, 0x90, 0xF0] ++ [0x20, 0x60, 0x20, 0x20, 0x70] ++
  [0xF0, 0x10, 0xF0, 0x80, 0xF0] ++ [0xF0, 0x10, 0xF0, 0x10, 0xF0] ++
  [0x90, 0x90, 0xF0, 0x10, 0x10] ++ [0xF0, 0x80, 0xF0, 0x10, 0xF0] ++
  [0xF0, 0x80, 0xF0, 0x90, 0xF0] ++ [0xF0, 0x10, 0x20, 0x40, 0x40]

/-- The default font of 10_state.md R27, glyphs 8 to F. -/
def Config.fontHigh : List Byte :=
  [0xF0, 0x90, 0xF0, 0x90, 0xF0] ++ [0xF0, 0x90, 0xF0, 0x10, 0xF0] ++
  [0xF0, 0x90, 0xF0, 0x90, 0x90] ++ [0xE0, 0x90, 0xE0, 0x90, 0xE0] ++
  [0xF0, 0x80, 0x80, 0x80, 0xF0] ++ [0xE0, 0x90, 0x90, 0x90, 0xE0] ++
  [0xF0, 0x80, 0xF0, 0x80, 0xF0] ++ [0xF0, 0x80, 0xF0, 0x80, 0x80]

/-- The default value of FONT: 16 glyphs of 5 bytes (10_state.md R27). -/
def Config.defaultFont : Vector Byte 80 :=
  ⟨⟨Config.fontLow ++ Config.fontHigh⟩, by decide⟩

/-- The binary64 bits of 1.0, full brightness (44_display.md R181, R183). -/
def Config.fullIntensity : Intensity := 0x3FF0000000000000

/-- The binary64 bits of 0.0 (44_display.md R182, R183). -/
def Config.zeroIntensity : Intensity := 0

/-- The parameters' defaults (00_scope.md R6). DESIGN CHOICE for `decayFactor`: the spec gives no default, 0.90 is
its example, and 0x3FECCCCCCCCCCCCD is the binary64 value nearest to it (log entry 2; unsafe for claims about
intensities that start from reset). -/
def Config.default : Config where
  stackLimit := none
  reservedWrite := .fault
  font := Config.defaultFont
  decayFactor := 0x3FECCCCCCCCCCCCD

/-- FREE VALUE: the byte the RNG oracle answers to the `n`-th draw (42_register_alu.md R131: the spec admits every
byte, with no law between draws). It has no body, so nothing can be proved about its values. DESIGN CHOICE of
form, log entry 3; safe. -/
opaque Config.rngByte : Nat → Byte

end Sys2Proof
end

