-- ==== Sys2Proof/WellFormed.lean ====
section
/-!
DEFINITION. What is well formed: a word of the opcode map (30_encoding.md R85, R86, R88), the bytes of one
instruction, and the parameters of a machine (00_scope.md R6). An `Instr` needs no check of its own: its operand
types have exactly the ranges of the fields (10_state.md R20, 30_encoding.md R84). The opcode map stands here as
mask and match rows, written from spec/opcode_table.json and independent of the decoder in Decode.lean.
-/

namespace Sys2Proof

/-- One row of the opcode table: a word `w` is in the row when `w AND mask = pattern`. -/
structure OpcodeRow where
  mnemonic : String
  mask : Word
  pattern : Word
deriving DecidableEq, Repr

/-- The word is in the row. -/
def OpcodeRow.selects (r : OpcodeRow) (w : Word) : Bool := w &&& r.mask == r.pattern

/-- Rows of families 0 to 7 (30_encoding.md R85). -/
def opcodeRows0to7 : List OpcodeRow :=
  [⟨"CLS", 0xFFFF, 0x00E0⟩, ⟨"RET", 0xFFFF, 0x00EE⟩, ⟨"JP", 0xF000, 0x1000⟩, ⟨"CALL", 0xF000, 0x2000⟩,
   ⟨"SE", 0xF000, 0x3000⟩, ⟨"SNE", 0xF000, 0x4000⟩, ⟨"SE", 0xF00F, 0x5000⟩, ⟨"LD", 0xF000, 0x6000⟩,
   ⟨"ADD", 0xF000, 0x7000⟩]

/-- Rows of family 8 (30_encoding.md R85). -/
def opcodeRows8 : List OpcodeRow :=
  [⟨"LD", 0xF00F, 0x8000⟩, ⟨"OR", 0xF00F, 0x8001⟩, ⟨"AND", 0xF00F, 0x8002⟩, ⟨"XOR", 0xF00F, 0x8003⟩,
   ⟨"ADD", 0xF00F, 0x8004⟩, ⟨"SUB", 0xF00F, 0x8005⟩, ⟨"SHR", 0xF00F, 0x8006⟩, ⟨"SUBN", 0xF00F, 0x8007⟩,
   ⟨"SHL", 0xF00F, 0x800E⟩]

/-- Rows of families 9 to F (30_encoding.md R85). -/
def opcodeRows9toF : List OpcodeRow :=
  [⟨"SNE", 0xF00F, 0x9000⟩, ⟨"LD", 0xF000, 0xA000⟩, ⟨"JP", 0xF000, 0xB000⟩, ⟨"RND", 0xF000, 0xC000⟩,
   ⟨"DRW", 0xF000, 0xD000⟩, ⟨"SKP", 0xF0FF, 0xE09E⟩, ⟨"SKNP", 0xF0FF, 0xE0A1⟩, ⟨"LD", 0xF0FF, 0xF007⟩,
   ⟨"LD", 0xF0FF, 0xF00A⟩, ⟨"LD", 0xF0FF, 0xF015⟩, ⟨"LD", 0xF0FF, 0xF018⟩, ⟨"ADD", 0xF0FF, 0xF01E⟩,
   ⟨"LD", 0xF0FF, 0xF029⟩, ⟨"LD", 0xF0FF, 0xF033⟩, ⟨"LD", 0xF0FF, 0xF055⟩, ⟨"LD", 0xF0FF, 0xF065⟩]

/-- The 34 rows of the opcode table. -/
def opcodeRows : List OpcodeRow := opcodeRows0to7 ++ opcodeRows8 ++ opcodeRows9toF

/-- A word of the opcode map: some row selects it. Every other word is illegal (30_encoding.md R88). -/
def legalWord (w : Word) : Bool := opcodeRows.any fun r => r.selects w

/-- The bytes of exactly one instruction: two, forming a legal word big-endian (30_encoding.md R80, R90). -/
def wellFormedBytes : List Byte → Bool
  | [hi, lo] => legalWord (hi ++ lo)
  | _ => false

/-- An intensity in [0.0, 1.0]: the binary64 patterns from 0.0 to 1.0 (44_display.md R183). -/
def wellFormedIntensity (v : Intensity) : Bool := v.toNat ≤ Config.fullIntensity.toNat

/-- Parameters within their ranges: DECAY_FACTOR is in [0, 1] (00_scope.md R6; the other ranges are the types'). -/
def Config.wellFormed (c : Config) : Bool := wellFormedIntensity c.decayFactor

end Sys2Proof
end

