-- ==== Sys2Proof/Decode.lean ====
section
/-!
DEFINITION. Decode and encode (30_encoding.md R51 to R96): the fields of a word, the nested selection by family and
sub-field, decoding of a byte stream, and the encoder written from the same patterns.
-/

namespace Sys2Proof

/-- The word of two bytes, the first more significant (20_memory.md R51). -/
def wordOfBytes (hi lo : Byte) : Word := hi ++ lo

/-- The byte at the lower address, `w[15:8]` (20_memory.md R51). -/
def highByte (w : Word) : Byte := w.extractLsb' 8 8

/-- The byte at the higher address, `w[7:0]` (20_memory.md R51). -/
def lowByte (w : Word) : Byte := w.extractLsb' 0 8

/-- `F = w[15:12]` (30_encoding.md R81). -/
def fieldF (w : Word) : BitVec 4 := w.extractLsb' 12 4

/-- `x = w[11:8]`, a register number (30_encoding.md R81). -/
def fieldX (w : Word) : Reg := (w.extractLsb' 8 4).toFin

/-- `y = w[7:4]`, a register number (30_encoding.md R81). -/
def fieldY (w : Word) : Reg := (w.extractLsb' 4 4).toFin

/-- `n = w[3:0]` (30_encoding.md R81). -/
def fieldN (w : Word) : BitVec 4 := w.extractLsb' 0 4

/-- `nn = w[7:0]` (30_encoding.md R81). -/
def fieldNN (w : Word) : Byte := w.extractLsb' 0 8

/-- `nnn = w[11:0]` (30_encoding.md R81). -/
def fieldNNN (w : Word) : BitVec 12 := w.extractLsb' 0 12

/-- Family 0 selects by the whole word (30_encoding.md R86). -/
def decodeFamily0 (w : Word) : Option Instr :=
  if w = 0x00E0#16 then some .cls else if w = 0x00EE#16 then some .ret else none

/-- Family 8 selects by n (30_encoding.md R86). -/
def decodeFamily8 (w : Word) : Option Instr :=
  match fieldN w with
  | 0x0#4 => some (.ldReg (fieldX w) (fieldY w))
  | 0x1#4 => some (.orReg (fieldX w) (fieldY w))
  | 0x2#4 => some (.andReg (fieldX w) (fieldY w))
  | 0x3#4 => some (.xorReg (fieldX w) (fieldY w))
  | 0x4#4 => some (.addReg (fieldX w) (fieldY w))
  | 0x5#4 => some (.sub (fieldX w) (fieldY w))
  | 0x6#4 => some (.shr (fieldX w) (fieldY w))
  | 0x7#4 => some (.subn (fieldX w) (fieldY w))
  | 0xE#4 => some (.shl (fieldX w) (fieldY w))
  | _ => none

/-- Family E selects by nn (30_encoding.md R86). -/
def decodeFamilyE (w : Word) : Option Instr :=
  match fieldNN w with
  | 0x9E#8 => some (.skp (fieldX w))
  | 0xA1#8 => some (.sknp (fieldX w))
  | _ => none

/-- Family F selects by nn (30_encoding.md R86). -/
def decodeFamilyF (w : Word) : Option Instr :=
  match fieldNN w with
  | 0x07#8 => some (.ldVxDt (fieldX w))
  | 0x0A#8 => some (.ldVxK (fieldX w))
  | 0x15#8 => some (.ldDt (fieldX w))
  | 0x18#8 => some (.ldSt (fieldX w))
  | 0x1E#8 => some (.addI (fieldX w))
  | 0x29#8 => some (.ldF (fieldX w))
  | 0x33#8 => some (.ldB (fieldX w))
  | 0x55#8 => some (.ldMemV (fieldX w))
  | 0x65#8 => some (.ldVMem (fieldX w))
  | _ => none

/-- The instruction a word selects, first by family and then by sub-field; `none` is an illegal word
(30_encoding.md R86, R88, R96). -/
def decode (w : Word) : Option Instr :=
  match fieldF w with
  | 0x0#4 => decodeFamily0 w
  | 0x1#4 => some (.jp (fieldNNN w))
  | 0x2#4 => some (.call (fieldNNN w))
  | 0x3#4 => some (.seImm (fieldX w) (fieldNN w))
  | 0x4#4 => some (.sneImm (fieldX w) (fieldNN w))
  | 0x5#4 => if fieldN w = 0#4 then some (.seReg (fieldX w) (fieldY w)) else none
  | 0x6#4 => some (.ldImm (fieldX w) (fieldNN w))
  | 0x7#4 => some (.addImm (fieldX w) (fieldNN w))
  | 0x8#4 => decodeFamily8 w
  | 0x9#4 => if fieldN w = 0#4 then some (.sneReg (fieldX w) (fieldY w)) else none
  | 0xA#4 => some (.ldI (fieldNNN w))
  | 0xB#4 => some (.jpV0 (fieldNNN w))
  | 0xC#4 => some (.rnd (fieldX w) (fieldNN w))
  | 0xD#4 => some (.drw (fieldX w) (fieldY w) (fieldN w))
  | 0xE#4 => decodeFamilyE w
  | _ => decodeFamilyF w -- the one value left, 0xF

/-- Why a byte stream decodes to no instruction. -/
inductive DecodeRejection where
  /-- Fewer than two bytes are left (30_encoding.md R80). -/
  | truncated
  /-- The word is not in the opcode map (30_encoding.md R88). -/
  | illegal (w : Word)
deriving DecidableEq, Repr

/-- Decode the first instruction of a byte stream, and what is left of the stream. Total: every stream gives an
instruction or a rejection by name (30_encoding.md R80, R87, R90). -/
def decodeBytes : List Byte → Except DecodeRejection (Instr × List Byte)
  | hi :: lo :: rest =>
    match decode (wordOfBytes hi lo) with
    | some i => .ok (i, rest)
    | none => .error (.illegal (wordOfBytes hi lo))
  | _ => .error .truncated

/-- The nibble of a register number. -/
def regBits (x : Reg) : BitVec 4 := BitVec.ofNat 4 x.val

/-- `F:nnn` (30_encoding.md R81). -/
def packNNN (f : BitVec 4) (nnn : BitVec 12) : Word := f ++ nnn

/-- `F:x:nn` (30_encoding.md R81). -/
def packXNN (f : BitVec 4) (x : Reg) (nn : Byte) : Word := f ++ regBits x ++ nn

/-- `F:x:y:n` (30_encoding.md R81). -/
def packXYN (f : BitVec 4) (x y : Reg) (n : BitVec 4) : Word := f ++ regBits x ++ regBits y ++ n

/-- The word of an instruction, from the patterns of 30_encoding.md R85. -/
def encode : Instr → Word
  | .cls => 0x00E0
  | .ret => 0x00EE
  | .jp nnn => packNNN 0x1 nnn
  | .call nnn => packNNN 0x2 nnn
  | .seImm x nn => packXNN 0x3 x nn
  | .sneImm x nn => packXNN 0x4 x nn
  | .seReg x y => packXYN 0x5 x y 0x0
  | .ldImm x nn => packXNN 0x6 x nn
  | .addImm x nn => packXNN 0x7 x nn
  | .ldReg x y => packXYN 0x8 x y 0x0
  | .orReg x y => packXYN 0x8 x y 0x1
  | .andReg x y => packXYN 0x8 x y 0x2
  | .xorReg x y => packXYN 0x8 x y 0x3
  | .addReg x y => packXYN 0x8 x y 0x4
  | .sub x y => packXYN 0x8 x y 0x5
  | .shr x y => packXYN 0x8 x y 0x6
  | .subn x y => packXYN 0x8 x y 0x7
  | .shl x y => packXYN 0x8 x y 0xE
  | .sneReg x y => packXYN 0x9 x y 0x0
  | .ldI nnn => packNNN 0xA nnn
  | .jpV0 nnn => packNNN 0xB nnn
  | .rnd x nn => packXNN 0xC x nn
  | .drw x y n => packXYN 0xD x y n
  | .skp x => packXNN 0xE x 0x9E
  | .sknp x => packXNN 0xE x 0xA1
  | .ldVxDt x => packXNN 0xF x 0x07
  | .ldVxK x => packXNN 0xF x 0x0A
  | .ldDt x => packXNN 0xF x 0x15
  | .ldSt x => packXNN 0xF x 0x18
  | .addI x => packXNN 0xF x 0x1E
  | .ldF x => packXNN 0xF x 0x29
  | .ldB x => packXNN 0xF x 0x33
  | .ldMemV x => packXNN 0xF x 0x55
  | .ldVMem x => packXNN 0xF x 0x65

/-- The two bytes of an instruction as memory holds them, the high byte first (20_memory.md R51). -/
def encodeBytes (i : Instr) : List Byte := [highByte (encode i), lowByte (encode i)]

/-- The instruction the decoder reads from a word numbered as spec/opcode_table.json numbers it: the word's bytes in
memory order are given to `decodeBytes`. Bits from `nbits` up are 0. -/
def decodeTableWord (nbits w : Nat) : Option Instr :=
  match decodeBytes [highByte (BitVec.ofNat 16 (w % 2 ^ nbits)), lowByte (BitVec.ofNat 16 (w % 2 ^ nbits))] with
  | .ok (i, _) => some i
  | .error _ => none

end Sys2Proof
end

