-- ==== Sys2Proof/Machine/Memory.lean ====
section
/-!
DEFINITION. Memory as plain data (20_memory.md R50): the bytes that differ from the reset contents, sorted by
address. All wider accesses are built from `Memory.read` and `Memory.write`.
-/

namespace Sys2Proof.Machine

/-- The 4096-byte array Mem (10_state.md R26), as the list of its bytes that differ from `resetByte`, addresses
strictly rising. -/
abbrev Memory := List Host.Cell

/-- What an unlisted address reads as: the contents of Mem after construction with the default FONT (10_state.md
R27, R28). Log entry 7. -/
def resetByte (a : Nat) : Byte := (Config.defaultFont.toList[a]?).getD 0

/-- The canonical form: addresses inside 0x000..0xFFF and strictly rising, no entry equal to the reset contents. -/
abbrev Memory.wf (m : Memory) : Prop :=
  m.Pairwise (fun c d => c.1 < d.1) ∧ ∀ c ∈ m, c.1 < 4096 ∧ c.2 ≠ resetByte c.1

/-- The byte at an address (20_memory.md R57). Addresses past 0xFFF do not exist; the accesses of Ops.lean check
that before they read. -/
def Memory.read : Memory → Nat → Byte
  | [], a => resetByte a
  | c :: m, a => if c.1 = a then c.2 else Memory.read m a

/-- The list with the entry of an address taken out. -/
def Memory.erase (m : Memory) (a : Nat) : Memory := m.filter fun c => c.1 ≠ a

/-- The sorted list with one entry put in or replaced. -/
def Memory.insert : Memory → Nat → Byte → Memory
  | [], a, b => [(a, b)]
  | c :: m, a, b =>
    if a < c.1 then (a, b) :: c :: m
    else if a = c.1 then (a, b) :: m
    else c :: Memory.insert m a b

/-- Write one byte, keeping the canonical form. An address past 0xFFF does not exist and nothing is written there;
the accesses of Ops.lean check that before they write. -/
def Memory.write (m : Memory) (a : Nat) (b : Byte) : Memory :=
  if a < 4096 then
    if b = resetByte a then Memory.erase m a else Memory.insert m a b
  else m

/-- The `n` bytes from address `a` up. -/
def Memory.readBytes (m : Memory) (a n : Nat) : List Byte :=
  (List.range n).map fun k => Memory.read m (a + k)

/-- Write the bytes of a list from address `a` up. -/
def Memory.writeBytes : Memory → Nat → List Byte → Memory
  | m, _, [] => m
  | m, a, b :: bs => Memory.writeBytes (Memory.write m a b) (a + 1) bs

end Sys2Proof.Machine
end

