-- ==== Sys2Proof/Machine/State.lean ====
section
/-!
DEFINITION. The state of the block (10_state.md), the record a machine fault leaves, a snapshot, and the state
after construction, which is this block's reset (70_reset_and_hazards.md R270).
-/

namespace Sys2Proof.Machine

/-- The kinds of machine fault (60_exceptions.md R220). -/
inductive FaultKind where
  /-- 00EE with an empty stack (R221). -/
  | stackUnderflow
  /-- A word not in the opcode map (R222). -/
  | illegalInstruction
  /-- A fetch with PC above 0xFFE (R223). -/
  | fetchOutOfRange
  /-- A data access whose last byte is above 0xFFF (R224). -/
  | dataOutOfRange
  /-- A store at or below 0x1FF under RESERVED_WRITE_POLICY = fault (R225). -/
  | reservedWrite
  /-- A key skip with Vx above 15 (R226). -/
  | keyIndexOutOfRange
  /-- 2nnn with STACK_LIMIT entries on the stack (R227). -/
  | stackOverflow
deriving DecidableEq, Repr

/-- The argument of a `raise` (the `info` column of 60_exceptions.md R220). -/
inductive FaultInfo where
  /-- No argument (StackUnderflow, StackOverflow). -/
  | none
  /-- The instruction word (IllegalInstruction). -/
  | word (w : Word)
  /-- PC (FetchOutOfRange) or I (DataOutOfRange, ReservedWrite). -/
  | addr (a : Word)
  /-- The value of Vx (KeyIndexOutOfRange). -/
  | key (v : Byte)
deriving DecidableEq, Repr

/-- A FaultRecord (10_state.md R39): `pc` is the address of the faulting instruction, `word` the fetched word, or
`none` where none was fetched. -/
structure FaultRecord where
  kind : FaultKind
  pc : Word
  word : Option Word
  info : FaultInfo
deriving DecidableEq, Repr

/-- Everything the spec gives the block (10_state.md R20 to R43), the parameters it was built with, and one field of
the model's own, `rngDraws`. -/
structure State where
  /-- The parameters (00_scope.md R6). Log entry 1. -/
  cfg : Config
  /-- V0..VF (10_state.md R20). -/
  v : Vector Byte 16
  /-- I, the index register (10_state.md R25). -/
  i : Word
  /-- PC (10_state.md R23). -/
  pc : Word
  /-- The call stack, the top entry last (10_state.md R29, R32). -/
  stack : List Word
  /-- Mem (10_state.md R26). -/
  mem : Memory
  /-- FB, `true` is lit (10_state.md R37). -/
  fb : Grid Bool
  /-- DT, the delay timer (10_state.md R34). -/
  dt : Byte
  /-- ST, the sound timer (10_state.md R35). -/
  st : Byte
  /-- The keypad latches, `true` is pressed (10_state.md R36). -/
  key : Vector Bool 16
  /-- Vis, the compositor's intensities (10_state.md R38). -/
  vis : Grid Intensity
  /-- Halted (10_state.md R39). -/
  halted : Bool
  /-- Fault (10_state.md R39). -/
  fault : Option FaultRecord
  /-- THE MODEL'S OWN: how many random bytes have been drawn, the argument of the free value `Config.rngByte`
  (10_state.md R40). Log entry 3. -/
  rngDraws : Nat
deriving DecidableEq, Repr

/-- A snapshot: the fields capture copies and restore puts back (60_exceptions.md R246, 10_state.md R45). -/
structure Snapshot where
  mem : Memory
  v : Vector Byte 16
  i : Word
  pc : Word
  stack : List Word
  fb : Grid Bool
  dt : Byte
  st : Byte
deriving DecidableEq, Repr

/-- The reasons an operation of the model ends with no next state. NO STEP ENDS SO: the seven machine faults of
60_exceptions.md R220 are TAKEN, as next states with Halted and Fault set (R230; log entry 4). -/
inductive Fault where
  /-- CapacityExceeded (60_exceptions.md R228): raised by the host action load, and by nothing else, when the ROM is
  longer than 3584 bytes. Nothing is changed and the machine is not halted. Safe: it is the spec's own outcome. -/
  | capacityExceeded (length : Nat)
deriving DecidableEq, Repr

/-- The reasons an instruction has no meaning in this model. -/
inductive Refusal where
  /-- An instruction without a meaning yet, raised by its arm of `exec` and by nothing else; no arm of this model
  raises it. Safe: the model stops. -/
  | notModelled (mnemonic : String)
deriving DecidableEq, Repr

/-- A machine as construction leaves it, over the given parameters and memory (10_state.md R43). -/
def State.fresh (cfg : Config) (mem : Memory) : State where
  cfg := cfg
  v := Vector.replicate 16 0
  i := 0
  pc := 0x200
  stack := []
  mem := mem
  fb := Vector.replicate 64 (Vector.replicate 32 false)
  dt := 0
  st := 0
  key := Vector.replicate 16 false
  vis := Vector.replicate 64 (Vector.replicate 32 Config.zeroIntensity)
  halted := false
  fault := none
  rngDraws := 0

/-- Construction of a fresh machine and compositor: the font of the parameters is written at 0x000, every other byte
is 0x00 (70_reset_and_hazards.md R270, R271; 10_state.md R27, R28, R43). -/
def State.construct (cfg : Config) : State := State.fresh cfg (Memory.writeBytes [] 0 cfg.font.toList)

/-- The machine right after reset: constructed with the default parameters (10_state.md R43, 00_scope.md R6). Its
memory lists nothing, since the default font is what unlisted addresses read as (`reset_eq_construct` in
Laws/Memory.lean). DESIGN CHOICE for `rngDraws` (log entry 3) and for the decay factor (log entry 2). -/
def State.reset : State := State.fresh Config.default []

end Sys2Proof.Machine
end

