-- ==== Sys2Proof/Machine/Ops.lean ====
section
/-!
DEFINITION. The named operations over the state: registers, memory, the stack, the keypad, the framebuffer; fetching
a word; and taking a fault, the one way a step that raises ends (60_exceptions.md R230).
-/

namespace Sys2Proof.Machine

/-- What a `raise` carries: the kind and its argument (00_scope.md R9, 60_exceptions.md R220). -/
abbrev Cause := FaultKind × FaultInfo

/-- What an instruction answers. -/
abbrev Result := Host.Outcome State Fault Refusal

/-- The code of a fault kind (60_exceptions.md R220). -/
def FaultKind.code : FaultKind → Nat
  | .stackUnderflow => 1
  | .illegalInstruction => 2
  | .fetchOutOfRange => 3
  | .dataOutOfRange => 4
  | .reservedWrite => 5
  | .keyIndexOutOfRange => 6
  | .stackOverflow => 7

/-- A vector given by a function of the index. -/
def vectorOf {α : Type} (n : Nat) (f : Fin n → α) : Vector α n := ⟨⟨(List.finRange n).map f⟩, by simp⟩

/-! ### Registers -/

/-- `V[x]` (00_scope.md R9). -/
def State.readV (s : State) (x : Reg) : Byte := s.v[x.val]

/-- `V[x] <- b` (00_scope.md R9). -/
def State.writeV (s : State) (x : Reg) (b : Byte) : State := { s with v := s.v.set x.val b }

/-- `V[k] <- bs[k]` for every k the list reaches; the other registers keep their values (43_index_memory.md R155). -/
def State.writeFirst (s : State) (bs : List Byte) : State :=
  { s with v := vectorOf 16 fun k => (bs[k.val]?).getD (s.readV k) }

/-- `I <- a` (00_scope.md R9). -/
def State.setI (s : State) (a : Word) : State := { s with i := a }

/-- `PC <- a` (00_scope.md R9). -/
def State.setPc (s : State) (a : Word) : State := { s with pc := a }

/-- `DT <- b` (00_scope.md R9). -/
def State.setDt (s : State) (b : Byte) : State := { s with dt := b }

/-- `ST <- b` (00_scope.md R9). -/
def State.setSt (s : State) (b : Byte) : State := { s with st := b }

/-! ### Memory -/

/-- `MemRead(addr, n)` (20_memory.md R55): the range is checked before a byte is read; `n = 0` never raises. -/
def State.memRead (s : State) (addr : Word) (n : Nat) : Except Cause (List Byte) :=
  if n = 0 ∨ addr.toNat + n - 1 ≤ 0xFFF then .ok (Memory.readBytes s.mem addr.toNat n)
  else .error (.dataOutOfRange, .addr addr)

/-- `MemWrite(addr, n, v)` (20_memory.md R56): the range first, then the reserved area, both before a byte is
written. -/
def State.memWrite (s : State) (addr : Word) (bs : List Byte) : Except Cause State :=
  if bs.length = 0 then .ok s
  else if ¬ addr.toNat + bs.length - 1 ≤ 0xFFF then .error (.dataOutOfRange, .addr addr)
  else if s.cfg.reservedWrite = .fault ∧ addr.toNat ≤ 0x1FF then .error (.reservedWrite, .addr addr)
  else .ok { s with mem := Memory.writeBytes s.mem addr.toNat bs }

/-! ### The call stack -/

/-- `Push(v)` (10_state.md R32). Log entry 11 on a stack longer than STACK_LIMIT. -/
def State.push (s : State) (a : Word) : Except Cause State :=
  if s.cfg.stackLimit = some s.stack.length then .error (.stackOverflow, .none)
  else .ok { s with stack := s.stack ++ [a] }

/-- `Pop()` (10_state.md R33): the top entry and the state without it. -/
def State.pop (s : State) : Except Cause (Word × State) :=
  match s.stack.getLast? with
  | none => .error (.stackUnderflow, .none)
  | some r => .ok (r, { s with stack := s.stack.dropLast })

/-! ### The keypad -/

/-- `Key[k]` (10_state.md R36). -/
def State.keyPressed (s : State) (k : KeyId) : Bool := s.key[k.val]

/-- The lowest pressed key, if one is pressed (45_timers_keypad.md R203). -/
def State.lowestKey (s : State) : Option KeyId := (List.finRange 16).find? fun k => s.keyPressed k

/-! ### Grids -/

/-- The element at column `x`, row `y`. -/
def gridGet {α : Type} (g : Grid α) (x : Fin 64) (y : Fin 32) : α := (g[x.val])[y.val]

/-- The grid with the element at column `x`, row `y` replaced. -/
def gridSet {α : Type} (g : Grid α) (x : Fin 64) (y : Fin 32) (a : α) : Grid α :=
  g.set x.val ((g[x.val]).set y.val a)

/-- The grid whose element at column `x`, row `y` is `f x y`. -/
def gridOf {α : Type} (f : Fin 64 → Fin 32 → α) : Grid α := vectorOf 64 fun x => vectorOf 32 fun y => f x y

/-- `FB[x][y]` (00_scope.md R9). -/
def State.pixel (s : State) (x : Fin 64) (y : Fin 32) : Bool := gridGet s.fb x y

/-- The whole framebuffer replaced. -/
def State.setFb (s : State) (g : Grid Bool) : State := { s with fb := g }

/-! ### The random source -/

/-- `RandomByte()` (42_register_alu.md R131): the free value of this draw. -/
def State.randomByte (s : State) : Byte := Config.rngByte s.rngDraws

/-- The state after a draw: the next one is fresh. -/
def State.drawn (s : State) : State := { s with rngDraws := s.rngDraws + 1 }

/-! ### Faults -/

/-- TAKING A FAULT (60_exceptions.md R230): nothing of the step is committed, PC is the address `a` of the faulting
instruction, Halted is set and the record is written. -/
def State.takeFault (s : State) (a : Word) (w : Option Word) (c : Cause) : State :=
  { s with pc := a, halted := true, fault := some { kind := c.1, pc := a, word := w, info := c.2 } }

/-- The end of instruction `i`, started in `s` (where PC is the provisional a + 2): its writes commit together, or it
raised and the fault is taken from `s`, with the provisional PC undone (30_encoding.md R97, 60_exceptions.md R230).
The record's word is the fetched word, which is `encode i`. Log entry 5. -/
def State.commit (i : Instr) (s : State) (r : Except Cause State) : Result :=
  match r with
  | .ok t => .next t
  | .error c => .next (s.takeFault (s.pc - 2) (some (encode i)) c)

/-- What the host is told after a step: the record, while the machine is halted (60_exceptions.md R230, R231). -/
def State.report (s : State) : Option FaultRecord := if s.halted then s.fault else none

/-! ### Fetch and decode -/

/-- The word at PC, or `none` where PC is above 0xFFE (30_encoding.md R94, 20_memory.md R51, R55). -/
def State.fetch (s : State) : Option Word :=
  if s.pc.toNat ≤ 0xFFE then
    some (wordOfBytes (Memory.read s.mem s.pc.toNat) (Memory.read s.mem (s.pc.toNat + 1)))
  else none

/-- The provisional PC (30_encoding.md R95). -/
def State.provisional (s : State) : State := s.setPc (s.pc + 2)

/-- The stages before execute (30_encoding.md R93 to R96): `.error t` where the step ends in `t` without executing
anything (halted, or a fault of fetch or decode taken), `.ok (i, t)` where `i` is executed in `t`. -/
def State.front (s : State) : Except State (Instr × State) :=
  if s.halted then .error s
  else
    match s.fetch with
    | none => .error (s.takeFault s.pc none (.fetchOutOfRange, .addr s.pc))
    | some w =>
      match decode w with
      | none => .error (s.takeFault s.pc (some w) (.illegalInstruction, .word w))
      | some i => .ok (i, s.provisional)

/-- The state with a word placed at PC and the machine not halted. Where PC is above 0xFFE there is no room for a
word and memory stays. Log entry 12. -/
def State.placeWord (s : State) (w : Word) : State :=
  if s.pc.toNat ≤ 0xFFE then
    { s with mem := Memory.writeBytes s.mem s.pc.toNat [highByte w, lowByte w], halted := false, fault := none }
  else { s with halted := false, fault := none }

end Sys2Proof.Machine
end

