-- ==== Sys2Proof/Machine/Operands.lean ====
section
/-!
DEFINITION. The operand forms (30_encoding.md R83, R84; 43_index_memory.md R156): immediates, the address operand,
the memory operands at I, the register range V0..Vx, the key index, BCD digits, glyph addresses, and the skip.
-/

namespace Sys2Proof.Machine

/-- `zext_16(nnn)` (30_encoding.md R83). -/
def addressOperand (nnn : BitVec 12) : Word := nnn.setWidth 16

/-- A register's value as a 16-bit number (00_scope.md R8). -/
def wordOf (b : Byte) : Word := b.setWidth 16

/-- `[V[0], ..., V[x]]` (43_index_memory.md R154). -/
def State.registersUpTo (s : State) (x : Reg) : List Byte :=
  ((List.finRange 16).take (x.val + 1)).map s.readV

/-- `MemRead(I, n)` (43_index_memory.md R156). -/
def State.readAtI (s : State) (n : Nat) : Except Cause (List Byte) := s.memRead s.i n

/-- `MemWrite(I, n, v)` (43_index_memory.md R156). -/
def State.writeAtI (s : State) (bs : List Byte) : Except Cause State := s.memWrite s.i bs

/-- The hundreds, tens and ones digits (43_index_memory.md R153). -/
def bcdDigits (b : Byte) : List Byte :=
  [BitVec.ofNat 8 (b.toNat / 100), BitVec.ofNat 8 (b.toNat / 10 % 10), BitVec.ofNat 8 (b.toNat % 10)]

/-- `vx * 5`, the address of glyph `vx` (43_index_memory.md R152). -/
def glyphAddress (b : Byte) : Word := BitVec.ofNat 16 (b.toNat * 5)

/-- `(I + vx) mod 4096` (43_index_memory.md R151). -/
def indexSum (i : Word) (b : Byte) : Word := BitVec.ofNat 16 ((i.toNat + b.toNat) % 4096)

/-- `zext_16(nnn) + v0`, kept whole (41_control.md R107). -/
def offsetTarget (nnn : BitVec 12) (b : Byte) : Word := addressOperand nnn + wordOf b

/-- The key a register value names, or KeyIndexOutOfRange (45_timers_keypad.md R200, R201). -/
def keyOperand (b : Byte) : Except Cause KeyId :=
  if h : b.toNat < 16 then .ok ⟨b.toNat, h⟩ else .error (.keyIndexOutOfRange, .key b)

/-- The taken skip `pc <- PC + 2`, or nothing (41_control.md R108). -/
def State.skipIf (s : State) (taken : Bool) : State := if taken then s.setPc (s.pc + 2) else s

end Sys2Proof.Machine
end

