-- ==== Sys2Proof/Machine/Control.lean ====
section
/-!
DEFINITION. Control transfer (41_control.md). PC is the provisional a + 2 on entry (30_encoding.md R95).
-/

namespace Sys2Proof.Machine

/-- 00EE RET (41_control.md R100). -/
def execRet (s : State) : Result := s.commit .ret (s.pop.map fun p => p.2.setPc p.1)

/-- 1nnn JP nnn (41_control.md R101). -/
def execJp (nnn : BitVec 12) (s : State) : Result := .next (s.setPc (addressOperand nnn))

/-- 2nnn CALL nnn (41_control.md R102): the pushed value is the provisional PC. -/
def execCall (nnn : BitVec 12) (s : State) : Result :=
  s.commit (.call nnn) ((s.push s.pc).map fun t => t.setPc (addressOperand nnn))

/-- 3xnn SE Vx, nn (41_control.md R103). -/
def execSeImm (x : Reg) (nn : Byte) (s : State) : Result := .next (s.skipIf (s.readV x == nn))

/-- 4xnn SNE Vx, nn (41_control.md R104). -/
def execSneImm (x : Reg) (nn : Byte) (s : State) : Result := .next (s.skipIf (s.readV x != nn))

/-- 5xy0 SE Vx, Vy (41_control.md R105). -/
def execSeReg (x y : Reg) (s : State) : Result := .next (s.skipIf (s.readV x == s.readV y))

/-- 9xy0 SNE Vx, Vy (41_control.md R106). -/
def execSneReg (x y : Reg) (s : State) : Result := .next (s.skipIf (s.readV x != s.readV y))

/-- Bnnn JP V0, nnn (41_control.md R107). -/
def execJpV0 (nnn : BitVec 12) (s : State) : Result := .next (s.setPc (offsetTarget nnn (s.readV 0)))

end Sys2Proof.Machine
end

