-- ==== Sys2Proof/Machine/Flags.lean ====
section
/-!
DEFINITION. The values VF receives as a flag (42_register_alu.md R126 to R133; 44_display.md R172) and the
flag-then-value write of the five flag-writing ALU operations (42_register_alu.md R132).
-/

namespace Sys2Proof.Machine

/-- A condition as the flag value 1 or 0. -/
def flagByte (c : Bool) : Byte := if c then 1 else 0

/-- Carry: the unsigned sum exceeds 255 (42_register_alu.md R126). -/
def carryFlag (a b : Byte) : Byte := flagByte (255 < a.toNat + b.toNat)

/-- No borrow: the minuend is at least the subtrahend (42_register_alu.md R127, R129). -/
def noBorrowFlag (minuend subtrahend : Byte) : Byte := flagByte (subtrahend.toNat ≤ minuend.toNat)

/-- The low bit a right shift drops (42_register_alu.md R128). -/
def shiftedOutLow (b : Byte) : Byte := b &&& 1

/-- The high bit a left shift drops (42_register_alu.md R130). -/
def shiftedOutHigh (b : Byte) : Byte := (b >>> 7) &&& 1

/-- VF first, Vx second: with x = F the result replaces the flag (42_register_alu.md R132). -/
def State.writeFlagThenValue (s : State) (x : Reg) (flag value : Byte) : State :=
  (s.writeV vf flag).writeV x value

end Sys2Proof.Machine
end

