-- ==== Sys2Proof/Machine/Display.lean ====
section
/-!
DEFINITION. The logical framebuffer's two instructions: clear and sprite draw (44_display.md R170 to R175).
-/

namespace Sys2Proof.Machine

/-- The framebuffer during a draw, and whether a lit pixel has been turned off so far. -/
abbrev DrawState := Grid Bool × Bool

/-- All pixels unlit. -/
def blankFb : Grid Bool := Vector.replicate 64 (Vector.replicate 32 false)

/-- The column `(vx + col) mod 64` (44_display.md R172). -/
def spriteColumn (vx col : Nat) : Fin 64 := ⟨(vx + col) % 64, Nat.mod_lt _ (by decide)⟩

/-- The row `(vy + r) mod 32` (44_display.md R172). -/
def spriteRow (vy r : Nat) : Fin 32 := ⟨(vy + r) % 32, Nat.mod_lt _ (by decide)⟩

/-- Column `col` of a sprite byte: bit 7 is the leftmost column (44_display.md R173). PRESUMED by the spec (D12), log
entry 15. -/
def spriteBit (b : Byte) (col : Nat) : Bool := b.getLsbD (7 - col)

/-- Toggle one pixel, noting a collision where it was lit (44_display.md R172). -/
def togglePixel (d : DrawState) (px : Fin 64) (py : Fin 32) : DrawState :=
  (gridSet d.1 px py (!gridGet d.1 px py), d.2 || gridGet d.1 px py)

/-- One sprite row: the eight columns in order (44_display.md R172). -/
def drawRow (vx vy r : Nat) (b : Byte) (d : DrawState) : DrawState :=
  (List.range 8).foldl
    (fun d col => if spriteBit b col then togglePixel d (spriteColumn vx col) (spriteRow vy r) else d) d

/-- The sprite rows in order, `r` the number of the first of them (44_display.md R172). -/
def drawRows (vx vy : Nat) : Nat → List Byte → DrawState → DrawState
  | _, [], d => d
  | r, b :: bs, d => drawRows vx vy (r + 1) bs (drawRow vx vy r b d)

/-- The state after a draw of the given sprite rows at (vx, vy): FB composited, VF the collision flag, which starts at
0 (44_display.md R172, R174). Log entry 18 on R175. -/
def State.drawSprite (s : State) (vx vy : Byte) (rows : List Byte) : State :=
  let d := drawRows vx.toNat vy.toNat 0 rows (s.fb, false)
  (s.writeV vf (flagByte d.2)).setFb d.1

/-- 00E0 CLS (44_display.md R171). -/
def execCls (s : State) : Result := .next (s.setFb blankFb)

/-- Dxyn DRW Vx, Vy, n (44_display.md R172): coordinates and sprite bytes are read first. -/
def execDrw (x y : Reg) (n : BitVec 4) (s : State) : Result :=
  s.commit (.drw x y n)
    ((s.readAtI n.toNat).map fun rows => s.drawSprite (s.readV x) (s.readV y) rows)

end Sys2Proof.Machine
end

