-- ==== Sys2Proof/Machine/IndexMemory.lean ====
section
/-!
DEFINITION. The index register, BCD, register dump and load (43_index_memory.md). I is changed by the first three
only (43_index_memory.md R156).
-/

namespace Sys2Proof.Machine

/-- Annn LD I, nnn (43_index_memory.md R150). -/
def execLdI (nnn : BitVec 12) (s : State) : Result := .next (s.setI (addressOperand nnn))

/-- Fx1E ADD I, Vx (43_index_memory.md R151). -/
def execAddI (x : Reg) (s : State) : Result := .next (s.setI (indexSum s.i (s.readV x)))

/-- Fx29 LD F, Vx (43_index_memory.md R152). -/
def execLdF (x : Reg) (s : State) : Result := .next (s.setI (glyphAddress (s.readV x)))

/-- Fx33 LD B, Vx (43_index_memory.md R153). -/
def execLdB (x : Reg) (s : State) : Result := s.commit (.ldB x) (s.writeAtI (bcdDigits (s.readV x)))

/-- Fx55 LD [I], Vx (43_index_memory.md R154). -/
def execLdMemV (x : Reg) (s : State) : Result := s.commit (.ldMemV x) (s.writeAtI (s.registersUpTo x))

/-- Fx65 LD Vx, [I] (43_index_memory.md R155). -/
def execLdVMem (x : Reg) (s : State) : Result :=
  s.commit (.ldVMem x) ((s.readAtI (x.val + 1)).map fun bs => s.writeFirst bs)

end Sys2Proof.Machine
end

