-- ==== Sys2Proof/Machine/KeypadTimers.lean ====
section
/-!
DEFINITION. Key skips, the key wait and timer access (45_timers_keypad.md). The latches are levels and no instruction
changes them (60_exceptions.md R244).
-/

namespace Sys2Proof.Machine

/-- Ex9E SKP Vx (45_timers_keypad.md R200). -/
def execSkp (x : Reg) (s : State) : Result :=
  s.commit (.skp x) ((keyOperand (s.readV x)).map fun k => s.skipIf (s.keyPressed k))

/-- ExA1 SKNP Vx (45_timers_keypad.md R201). -/
def execSknp (x : Reg) (s : State) : Result :=
  s.commit (.sknp x) ((keyOperand (s.readV x)).map fun k => s.skipIf (!s.keyPressed k))

/-- Fx07 LD Vx, DT (45_timers_keypad.md R202). -/
def execLdVxDt (x : Reg) (s : State) : Result := .next (s.writeV x s.dt)

/-- Fx0A LD Vx, K (45_timers_keypad.md R203): the lowest pressed key, or PC back to a. -/
def execLdVxK (x : Reg) (s : State) : Result :=
  match s.lowestKey with
  | some k => .next (s.writeV x (BitVec.ofNat 8 k.val))
  | none => .next (s.setPc (s.pc - 2))

/-- Fx15 LD DT, Vx (45_timers_keypad.md R204). -/
def execLdDt (x : Reg) (s : State) : Result := .next (s.setDt (s.readV x))

/-- Fx18 LD ST, Vx (45_timers_keypad.md R205). -/
def execLdSt (x : Reg) (s : State) : Result := .next (s.setSt (s.readV x))

end Sys2Proof.Machine
end

