-- ==== Sys2Proof/Machine/RegisterAlu.lean ====
section
/-!
DEFINITION. Register loads, arithmetic, logic, shifts and random (42_register_alu.md). Arithmetic on `Byte` is mod 256
(42_register_alu.md R133). Both operands are read before any write (00_scope.md R10).
-/

namespace Sys2Proof.Machine

/-- 6xnn LD Vx, nn (42_register_alu.md R120). -/
def execLdImm (x : Reg) (nn : Byte) (s : State) : Result := .next (s.writeV x nn)

/-- 7xnn ADD Vx, nn (42_register_alu.md R121): no flag. -/
def execAddImm (x : Reg) (nn : Byte) (s : State) : Result := .next (s.writeV x (s.readV x + nn))

/-- 8xy0 LD Vx, Vy (42_register_alu.md R122). -/
def execLdReg (x y : Reg) (s : State) : Result := .next (s.writeV x (s.readV y))

/-- 8xy1 OR Vx, Vy (42_register_alu.md R123). -/
def execOrReg (x y : Reg) (s : State) : Result := .next (s.writeV x (s.readV x ||| s.readV y))

/-- 8xy2 AND Vx, Vy (42_register_alu.md R124). -/
def execAndReg (x y : Reg) (s : State) : Result := .next (s.writeV x (s.readV x &&& s.readV y))

/-- 8xy3 XOR Vx, Vy (42_register_alu.md R125). -/
def execXorReg (x y : Reg) (s : State) : Result := .next (s.writeV x (s.readV x ^^^ s.readV y))

/-- 8xy4 ADD Vx, Vy (42_register_alu.md R126). -/
def execAddReg (x y : Reg) (s : State) : Result :=
  .next (s.writeFlagThenValue x (carryFlag (s.readV x) (s.readV y)) (s.readV x + s.readV y))

/-- 8xy5 SUB Vx, Vy (42_register_alu.md R127). -/
def execSub (x y : Reg) (s : State) : Result :=
  .next (s.writeFlagThenValue x (noBorrowFlag (s.readV x) (s.readV y)) (s.readV x - s.readV y))

/-- 8xy6 SHR Vx (42_register_alu.md R128): the shift reads Vx; y is not used. -/
def execShr (x _y : Reg) (s : State) : Result :=
  .next (s.writeFlagThenValue x (shiftedOutLow (s.readV x)) (s.readV x >>> 1))

/-- 8xy7 SUBN Vx, Vy (42_register_alu.md R129). -/
def execSubn (x y : Reg) (s : State) : Result :=
  .next (s.writeFlagThenValue x (noBorrowFlag (s.readV y) (s.readV x)) (s.readV y - s.readV x))

/-- 8xyE SHL Vx (42_register_alu.md R130): the shift reads Vx; y is not used. -/
def execShl (x _y : Reg) (s : State) : Result :=
  .next (s.writeFlagThenValue x (shiftedOutHigh (s.readV x)) (s.readV x <<< 1))

/-- Cxnn RND Vx, nn (42_register_alu.md R131): a fresh draw of the free value AND nn. -/
def execRnd (x : Reg) (nn : Byte) (s : State) : Result :=
  .next (s.drawn.writeV x (s.randomByte &&& nn))

end Sys2Proof.Machine
end

