-- ==== Sys2Proof/Machine/Step.lean ====
section
/-!
DEFINITION. One step of the machine (30_encoding.md R93 to R97), and how an instruction is placed where the next step
fetches it.
-/

namespace Sys2Proof.Machine

/-- `step()`: exactly one fetch-decode-execute cycle. A halted machine, and a machine whose fetch or decode raises,
executes nothing (30_encoding.md R93; 60_exceptions.md R230, R231). -/
def step (s : State) : Host.Outcome State Fault Refusal :=
  match s.front with
  | .error t => .next t
  | .ok (i, t) => exec i t

/-- `s` with the table's word `w` stored, big-endian, where `step` fetches next. Log entry 12. -/
def State.withFetchWord (s : State) (nbits w : Nat) : State := s.placeWord (BitVec.ofNat 16 (w % 2 ^ nbits))

end Sys2Proof.Machine
end

