-- ==== Sys2Proof/Machine/Compositor.lean ====
section
/-!
DEFINITION. The Display Compositor (44_display.md R180 to R187): binary64 multiplication on [0.0, 1.0], rounded to
nearest with ties to even (R183), and composite (R181).

A binary64 value in [0.0, 1.0] is a whole multiple of 2^-1074, so its exact value is a natural number in that unit.
Log entry 9: on patterns outside [0.0, 1.0], which no reachable state holds, the product has no meaning.
-/

namespace Sys2Proof.Machine

/-- The exact value of a non-negative finite binary64 pattern, in units of 2^-1074. -/
def intensityUnits (v : Intensity) : Nat :=
  if v.toNat / 2 ^ 52 = 0 then v.toNat
  else (2 ^ 52 + v.toNat % 2 ^ 52) * 2 ^ (v.toNat / 2 ^ 52 - 1)

/-- `n / d` rounded to the nearest whole number, a tie to the even one. -/
def roundHalfEven (n d : Nat) : Nat :=
  if 2 * (n % d) < d then n / d
  else if d < 2 * (n % d) then n / d + 1
  else n / d + n / d % 2

/-- The number of low bits (in units of 2^-1074) that a significand of 53 bits cannot hold, for a value of
`n / 2^1074` units. -/
def roundingShift (n : Nat) : Nat := Nat.log2 n - 1126

/-- The binary64 pattern nearest to `n / 2^1074` units, ties to even: a significand `m` times `2^t` units has the
pattern `t * 2^52 + m`, subnormal, normal or carried into the next exponent alike. -/
def roundToIntensity (n : Nat) : Intensity :=
  BitVec.ofNat 64 (roundingShift n * 2 ^ 52 + roundHalfEven n (2 ^ (1074 + roundingShift n)))

/-- `v * f` in binary64, rounded to nearest, ties to even (44_display.md R183). -/
def intensityMul (v f : Intensity) : Intensity := roundToIntensity (intensityUnits v * intensityUnits f)

/-- The factor of a composite: DECAY_FACTOR, or 0.0 with decay disabled (44_display.md R182). -/
def State.decayBy (s : State) (decayEnabled : Bool) : Intensity :=
  if decayEnabled then s.cfg.decayFactor else Config.zeroIntensity

/-- The new intensities: full for a lit pixel of the frame, the old one times the factor for an unlit one
(44_display.md R181). -/
def decayedGrid (vis : Grid Intensity) (frame : Grid Bool) (factor : Intensity) : Grid Intensity :=
  gridOf fun x y =>
    if gridGet frame x y then Config.fullIntensity else intensityMul (gridGet vis x y) factor

/-- `composite(L, decay_enabled)` (44_display.md R181): the new Vis; nothing else changes. -/
def State.composite (s : State) (frame : Grid Bool) (decayEnabled : Bool) : State :=
  { s with vis := decayedGrid s.vis frame (s.decayBy decayEnabled) }

end Sys2Proof.Machine
end

