-- ==== Sys2Proof/Machine/HostActions.lean ====
section
/-!
DEFINITION. The host interface (60_exceptions.md R250): every action the host can take between two steps, what it
answers, and runs as lists of actions, every interleaving admitted (60_exceptions.md R251).
-/

namespace Sys2Proof.Machine

/-- A timer value after one tick: down by 1 unless it is 0 (60_exceptions.md R240). -/
def countDown (b : Byte) : Byte := if b = 0 then 0 else b - 1

/-- `tick_timers()` (60_exceptions.md R240, R255). -/
def State.tickTimers (s : State) : State := { s with dt := countDown s.dt, st := countDown s.st }

/-- `set_key(k, p)` (60_exceptions.md R243, R229). -/
def State.setKey (s : State) (k : KeyId) (p : Bool) : State := { s with key := s.key.set k.val p }

/-- `SoundActive = (ST /= 0)` (60_exceptions.md R242). -/
def State.soundActive (s : State) : Bool := s.st != 0

/-- The most bytes load takes, 4096 - 0x200 (00_scope.md R6). -/
def maxRom : Nat := 3584

/-- `load(bytes)` (70_reset_and_hazards.md R272): CapacityExceeded, or the bytes at 0x200 up and nothing else. -/
def State.load (s : State) (bytes : List Byte) : Result :=
  if maxRom < bytes.length then .fault (.capacityExceeded bytes.length)
  else .next { s with mem := Memory.writeBytes s.mem 0x200 bytes }

/-- `capture()` (60_exceptions.md R246). -/
def State.capture (s : State) : Snapshot where
  mem := s.mem
  v := s.v
  i := s.i
  pc := s.pc
  stack := s.stack
  fb := s.fb
  dt := s.dt
  st := s.st

/-- `restore(s)` (60_exceptions.md R247): Key, Vis, the parameters and the random source are left alone. -/
def State.restore (s : State) (snap : Snapshot) : State :=
  { s with
    mem := snap.mem, v := snap.v, i := snap.i, pc := snap.pc, stack := snap.stack
    fb := snap.fb, dt := snap.dt, st := snap.st, halted := false, fault := none }

/-- Construction of a fresh instance with the same parameters (70_reset_and_hazards.md R274). The random source is not
the machine's (10_state.md R40), so its draws go on. Log entry 13. -/
def State.reconstruct (s : State) : State := { State.construct s.cfg with rngDraws := s.rngDraws }

/-- The actions of the host (60_exceptions.md R250; 70_reset_and_hazards.md R274). -/
inductive Action where
  | step
  | tickTimers
  | setKey (k : KeyId) (p : Bool)
  | load (bytes : List Byte)
  | capture
  | restore (snap : Snapshot)
  | readFb
  | readDt
  | readSoundActive
  | composite (frame : Grid Bool) (decayEnabled : Bool)
  | construct
deriving DecidableEq, Repr

/-- What an action answers to the host (60_exceptions.md R250). -/
inductive Answer where
  /-- Nothing to report. -/
  | done
  /-- A step's report of the recorded fault (R230, R231). -/
  | fault (r : FaultRecord)
  /-- load's CapacityExceeded (R228). -/
  | capacityExceeded
  | snapshot (snap : Snapshot)
  | frame (fb : Grid Bool)
  | delay (dt : Byte)
  | sound (active : Bool)
  | intensities (vis : Grid Intensity)
deriving DecidableEq, Repr

/-- A step as a host action: the state it leaves and the report. A step always answers a next state; the other two
outcomes leave the state as it was. -/
def State.hostStep (s : State) : State :=
  match step s with
  | .next t => t
  | .fault _ => s
  | .refused _ => s

/-- The state a host action leaves (60_exceptions.md R250). -/
def State.act (s : State) (a : Action) : State :=
  match a with
  | .step => s.hostStep
  | .tickTimers => s.tickTimers
  | .setKey k p => s.setKey k p
  | .load bytes =>
    match s.load bytes with
    | .next t => t
    | .fault _ => s
    | .refused _ => s
  | .capture => s
  | .restore snap => s.restore snap
  | .readFb => s
  | .readDt => s
  | .readSoundActive => s
  | .composite frame e => s.composite frame e
  | .construct => s.reconstruct

/-- What a host action answers, read from the state before it and the state it leaves (60_exceptions.md R250). -/
def State.answer (s : State) (a : Action) : Answer :=
  match a with
  | .step =>
    match (s.act .step).report with
    | some r => .fault r
    | none => .done
  | .load bytes => if maxRom < bytes.length then .capacityExceeded else .done
  | .capture => .snapshot s.capture
  | .readFb => .frame s.fb
  | .readDt => .delay s.dt
  | .readSoundActive => .sound s.soundActive
  | .composite frame e => .intensities (s.composite frame e).vis
  | .tickTimers => .done
  | .setKey _ _ => .done
  | .restore _ => .done
  | .construct => .done

/-- A run: the actions in order, any list being admitted (60_exceptions.md R251). -/
def State.acts (s : State) : List Action → State
  | [] => s
  | a :: rest => State.acts (s.act a) rest

/-- One period of the source's driver loop (60_exceptions.md R252): `k` steps, then one tick. The spec does not say how
IPS/60 is rounded, so `k` is any number. -/
def driverPeriod (k : Nat) : List Action := List.replicate k .step ++ [.tickTimers]

end Sys2Proof.Machine
end

