-- ==== Sys2Proof/Safety.lean ====
section
/-!
DEFINITION. The terms claims use: the parts of a state and what changes them, the invariant of the reachable states,
and the spec's whole-machine tables: which parts an instruction writes (10_state.md R21 to R37), the final PC
(10_state.md R24), which fault a step raises (60_exceptions.md R220, R232), the end of a run
(70_reset_and_hazards.md R288).
-/

namespace Sys2Proof.Machine

/-! ### Parts and frames -/

/-- One piece of state: a register, one byte of memory, one pixel, one latch, ... -/
inductive Part where
  | v (x : Reg)
  | i
  | pc
  | stack
  | mem (a : Nat)
  | pixel (x : Fin 64) (y : Fin 32)
  | dt
  | st
  | key (k : KeyId)
  | vis (x : Fin 64) (y : Fin 32)
  | halted
  | fault
  | rngDraws
  | cfg
deriving DecidableEq, Repr

/-- The part holds the same value in both states; a byte of memory is compared through the model's read of it. -/
def Part.Same (p : Part) (s t : State) : Prop :=
  match p with
  | .v x => t.readV x = s.readV x
  | .i => t.i = s.i
  | .pc => t.pc = s.pc
  | .stack => t.stack = s.stack
  | .mem a => Memory.read t.mem a = Memory.read s.mem a
  | .pixel x y => t.pixel x y = s.pixel x y
  | .dt => t.dt = s.dt
  | .st => t.st = s.st
  | .key k => t.keyPressed k = s.keyPressed k
  | .vis x y => gridGet t.vis x y = gridGet s.vis x y
  | .halted => t.halted = s.halted
  | .fault => t.fault = s.fault
  | .rngDraws => t.rngDraws = s.rngDraws
  | .cfg => t.cfg = s.cfg

/-- Every part outside `written` is unchanged from `s` to `t`: every register, every byte of memory, every pixel. -/
def ChangesOnly (written : Part → Prop) (s t : State) : Prop := ∀ p, ¬ written p → p.Same s t

/-- The parts of the bytes `a`, ..., `a + n - 1`. -/
def memoryRange (a n : Nat) (p : Part) : Prop := ∃ k, k < n ∧ p = .mem (a + k)

/-- Any pixel of FB. -/
def anyPixel (p : Part) : Prop := ∃ x y, p = .pixel x y

/-- What an instruction that completes from `s` writes: the writers of V (10_state.md R21, R22), PC (R24), I (R25),
the stack (R29), DT and ST (R34, R35), FB (R37) and Mem (20_memory.md R54). No instruction writes Key (R36) or Vis
(R38). PC is the provisional PC here, so an instruction that ends at a + 2 does not write it. -/
def InstrWrites (i : Instr) (s : State) (p : Part) : Prop :=
  match i with
  | .cls => anyPixel p
  | .ret => p = .pc ∨ p = .stack
  | .jp _ => p = .pc
  | .call _ => p = .pc ∨ p = .stack
  | .seImm _ _ => p = .pc
  | .sneImm _ _ => p = .pc
  | .seReg _ _ => p = .pc
  | .ldImm x _ => p = .v x
  | .addImm x _ => p = .v x
  | .ldReg x _ => p = .v x
  | .orReg x _ => p = .v x
  | .andReg x _ => p = .v x
  | .xorReg x _ => p = .v x
  | .addReg x _ => p = .v x ∨ p = .v vf
  | .sub x _ => p = .v x ∨ p = .v vf
  | .shr x _ => p = .v x ∨ p = .v vf
  | .subn x _ => p = .v x ∨ p = .v vf
  | .shl x _ => p = .v x ∨ p = .v vf
  | .sneReg _ _ => p = .pc
  | .ldI _ => p = .i
  | .jpV0 _ => p = .pc
  | .rnd x _ => p = .v x ∨ p = .rngDraws
  | .drw _ _ _ => anyPixel p ∨ p = .v vf
  | .skp _ => p = .pc
  | .sknp _ => p = .pc
  | .ldVxDt x => p = .v x
  | .ldVxK x => p = .v x ∨ p = .pc
  | .ldDt _ => p = .dt
  | .ldSt _ => p = .st
  | .addI _ => p = .i
  | .ldF _ => p = .i
  | .ldB _ => memoryRange s.i.toNat 3 p
  | .ldMemV x => memoryRange s.i.toNat (x.val + 1) p
  | .ldVMem x => ∃ k, k ≤ x ∧ p = .v k

/-- The fault entry of 60_exceptions.md R230, from a state `s` to a state `t`: PC is `a`, Halted is 1, the record is
`{kind, a, w, info}`, and every other part is as it was in `s`. -/
def FaultTaken (s t : State) (a : Word) (w : Option Word) (kind : FaultKind) (info : FaultInfo) : Prop :=
  t.pc = a ∧ t.halted = true ∧ t.fault = some { kind := kind, pc := a, word := w, info := info } ∧
    ChangesOnly (fun p => p = .pc ∨ p = .halted ∨ p = .fault) s t

/-- `w` is the word of `i`, in both directions (30_encoding.md R81, R85). -/
def EncodedAs (w : Word) (i : Instr) : Prop := decode w = some i ∧ encode i = w

/-! ### Whole-machine tables -/

/-- The legal words of each family, as 30_encoding.md R86 lists them. -/
def legalByFamily (w : Word) : Bool :=
  let n := (fieldN w).toNat
  let nn := (fieldNN w).toNat
  match (fieldF w).toNat with
  | 0 => w.toNat == 0x00E0 || w.toNat == 0x00EE
  | 5 => n == 0
  | 8 => n ∈ [0x0, 0x1, 0x2, 0x3, 0x4, 0x5, 0x6, 0x7, 0xE]
  | 9 => n == 0
  | 14 => nn ∈ [0x9E, 0xA1]
  | 15 => nn ∈ [0x07, 0x0A, 0x15, 0x18, 0x1E, 0x29, 0x33, 0x55, 0x65]
  | _ => true

/-- A set bit of the sprite of `n` rows at I, placed at (vx, vy), falls on column `px`, row `py` (44_display.md R172,
R173). -/
def SpriteCovers (s : State) (vx vy n : Nat) (px : Fin 64) (py : Fin 32) : Prop :=
  ∃ r col, r < n ∧ col < 8 ∧ (Memory.read s.mem (s.i.toNat + r)).getLsbD (7 - col) = true ∧
    (vx + col) % 64 = px.val ∧ (vy + r) % 32 = py.val

/-- A taken skip lands at a + 4, a skip not taken at a + 2 (41_control.md R108). -/
def skipTarget (a : Word) (taken : Prop) [Decidable taken] : Word := if taken then a + 4 else a + 2

/-- The final PC of an instruction fetched at `a` that raises nothing, read from the state at the start of the step
(10_state.md R24). -/
def instrFinalPc (i : Instr) (a : Word) (s : State) : Word :=
  match i with
  | .ret => s.stack.getLast?.getD a
  | .jp nnn => nnn.setWidth 16
  | .call nnn => nnn.setWidth 16
  | .jpV0 nnn => nnn.setWidth 16 + (s.readV 0).setWidth 16
  | .seImm x nn => skipTarget a (s.readV x = nn)
  | .sneImm x nn => skipTarget a (s.readV x ≠ nn)
  | .seReg x y => skipTarget a (s.readV x = s.readV y)
  | .sneReg x y => skipTarget a (s.readV x ≠ s.readV y)
  | .skp x => skipTarget a (∃ k, s.keyPressed k ∧ k.val = (s.readV x).toNat)
  | .sknp x => skipTarget a (∃ k, ¬ s.keyPressed k ∧ k.val = (s.readV x).toNat)
  | .ldVxK _ => if ∃ k, s.keyPressed k then a + 2 else a
  | _ => a + 2

/-- The execute-stage fault of an instruction, read from the state at the start of the step (60_exceptions.md R220,
R224 to R227, R232). -/
def instrRaises (i : Instr) (s : State) : Option Cause :=
  match i with
  | .ret => if s.stack = [] then some (.stackUnderflow, .none) else none
  | .call _ => if s.cfg.stackLimit = some s.stack.length then some (.stackOverflow, .none) else none
  | .skp x => if 15 < (s.readV x).toNat then some (.keyIndexOutOfRange, .key (s.readV x)) else none
  | .sknp x => if 15 < (s.readV x).toNat then some (.keyIndexOutOfRange, .key (s.readV x)) else none
  | .drw _ _ n =>
    if 1 ≤ n.toNat ∧ 0xFFF < s.i.toNat + n.toNat - 1 then some (.dataOutOfRange, .addr s.i) else none
  | .ldVMem x => if 0xFFF < s.i.toNat + x.val then some (.dataOutOfRange, .addr s.i) else none
  | .ldB _ =>
    if 0xFFD < s.i.toNat then some (.dataOutOfRange, .addr s.i)
    else if s.cfg.reservedWrite = .fault ∧ s.i.toNat ≤ 0x1FF then some (.reservedWrite, .addr s.i)
    else none
  | .ldMemV x =>
    if 0xFFF < s.i.toNat + x.val then some (.dataOutOfRange, .addr s.i)
    else if s.cfg.reservedWrite = .fault ∧ s.i.toNat ≤ 0x1FF then some (.reservedWrite, .addr s.i)
    else none
  | _ => none

/-- The fault a step from a machine that is not halted raises, in the order of the stages (60_exceptions.md R232). -/
def State.raises (s : State) : Option Cause :=
  if 0xFFE < s.pc.toNat then some (.fetchOutOfRange, .addr s.pc)
  else
    let w := wordOfBytes (Memory.read s.mem s.pc.toNat) (Memory.read s.mem (s.pc.toNat + 1))
    match decode w with
    | none => some (.illegalInstruction, .word w)
    | some i => instrRaises i s

/-- The first state of the end of a run (70_reset_and_hazards.md R288): a fault, or a jump to itself at PC. -/
def State.endOfRun (s : State) : Bool :=
  s.halted || (decide (s.pc.toNat ≤ 0xFFF) && s.fetch == some (0x1000 ||| s.pc))

/-! ### The display, the halt and the invariant of the reachable states -/

/-- The state with everything the compositor owns or reads (Vis, DECAY_FACTOR) blanked: what is left is the Machine
(44_display.md R185). -/
def State.withoutDisplay (s : State) : State :=
  { s with
    vis := Vector.replicate 64 (Vector.replicate 32 Config.zeroIntensity)
    cfg := { s.cfg with decayFactor := Config.zeroIntensity } }

/-- The action is a composite call. -/
def Action.isComposite : Action → Bool
  | .composite _ _ => true
  | _ => false

/-- The action is one of the two that leave the halted state (60_exceptions.md R235). -/
def Action.endsHalt : Action → Bool
  | .restore _ => true
  | .construct => true
  | _ => false

/-- What every reachable state satisfies: memory canonical; I, PC and stack entries within the bounds of 10_state.md
R25, R30 and R44; Halted exactly when a fault is recorded, at PC (60_exceptions.md R230); the decay factor and every
intensity in [0.0, 1.0] (44_display.md R182, R183). -/
structure StateInv (s : State) : Prop where
  memory : Memory.wf s.mem
  index : s.i.toNat ≤ 0xFFF
  pc : s.pc.toNat ≤ 0x10FE
  stack : ∀ a ∈ s.stack, a.toNat ≤ 0x1000
  halt : s.halted = s.fault.isSome
  record : ∀ r, s.fault = some r → r.pc = s.pc
  decay : s.cfg.wellFormed = true
  vis : ∀ x y, wellFormedIntensity (gridGet s.vis x y) = true

/-- A snapshot that a machine satisfying the invariant can have captured. -/
structure SnapshotInv (snap : Snapshot) : Prop where
  memory : Memory.wf snap.mem
  index : snap.i.toNat ≤ 0xFFF
  pc : snap.pc.toNat ≤ 0x10FE
  stack : ∀ a ∈ snap.stack, a.toNat ≤ 0x1000

/-- An action the host may take without leaving the invariant: a restore installs such a snapshot, every other action
is free. -/
def Action.Admissible (a : Action) : Prop := ∀ snap, a = .restore snap → SnapshotInv snap

end Sys2Proof.Machine
end

