-- ==== Sys2Proof/Certificates/Slice0/Obligations.lean ====
section
/-!
DEFINITION. The statements for the provers. `exec` runs with the provisional PC (30_encoding.md R95): in a statement
about `exec i s`, `s.pc` is a + 2 and `s.pc - 2` is the fetch address a. A statement that rests on one of the spec's own
decisions D<n> (92_eei_decisions.md) or on a log entry of the model says so in its docstring.
-/

open Sys2Proof Sys2Proof.Machine

/-! ### Encoding, decode, fetch -/

/-- Decoding an encoded instruction gives it back, every operand at every value, whatever bytes follow
(30_encoding.md R80, R81, R85, R90). -/
def Obligations.EncodeThenDecodeGivesInstruction : Prop :=
  ∀ (i : Instr) (rest : List Byte), decode (encode i) = some i ∧ decodeBytes (encodeBytes i ++ rest) = .ok (i, rest)

/-- Encoding a decoded instruction gives its word back: no bit of a legal word is lost (30_encoding.md R85, R87). -/
def Obligations.DecodeThenEncodeGivesWord : Prop :=
  ∀ (w : Word) (i : Instr), decode w = some i → encode i = w

/-- The decoder accepts exactly the words of 30_encoding.md R86, which are exactly the words some mask and match row of
the opcode table selects (R87); every other word is illegal (R88, decision D2). -/
def Obligations.DecodeAcceptsExactlyTheOpcodeMap : Prop :=
  ∀ w : Word, (decode w).isSome = legalByFamily w ∧ legalByFamily w = legalWord w

/-- 34 rows, no two of which select one word, and 43,954 legal words of the 65,536 (30_encoding.md R87, which the spec
marks derived). -/
def Obligations.OpcodeRowsAreDisjointAndCounted : Prop :=
  opcodeRows.length = 34 ∧
  opcodeRows.Pairwise (fun r q => ∀ w : Word, ¬ (r.selects w = true ∧ q.selects w = true)) ∧
  (List.range 65536).countP (fun k => legalWord (BitVec.ofNat 16 k)) = 43954

/-- A few words written out from the patterns of 30_encoding.md R85. -/
def Obligations.SampleWordsDecode : Prop :=
  decode 0b0010001000010000#16 = some (.call 0x210) ∧ decode 0b1000010001010110#16 = some (.shr 4 5) ∧
  decode 0b1101000000010101#16 = some (.drw 0 1 5) ∧ decode 0b1110000110100001#16 = some (.sknp 1) ∧
  decode 0b1111001001010101#16 = some (.ldMemV 2) ∧ decode 0b1010001011110000#16 = some (.ldI 0x2F0)

/-- The fetched word has the byte at PC above the byte at PC + 1, at even and odd PC alike (20_memory.md R51). -/
def Obligations.FetchIsBigEndian : Prop :=
  ∀ s : State, s.pc.toNat ≤ 0xFFE → ∃ w, s.fetch = some w ∧
    w.extractLsb' 8 8 = Memory.read s.mem s.pc.toNat ∧ w.extractLsb' 0 8 = Memory.read s.mem (s.pc.toNat + 1) ∧
    w.toNat = 256 * (Memory.read s.mem s.pc.toNat).toNat + (Memory.read s.mem (s.pc.toNat + 1)).toNat

/-! ### The step, halting and faults -/

/-- A step of a running machine whose word decodes is the execute stage of that instruction, with PC the provisional
a + 2 and nothing else around it (30_encoding.md R93 to R97). -/
def Obligations.StepRunsDecodedInstruction : Prop :=
  ∀ (s : State) (i : Instr), s.halted = false → s.pc.toNat ≤ 0xFFE →
    decode (Memory.read s.mem s.pc.toNat ++ Memory.read s.mem (s.pc.toNat + 1)) = some i →
    step s = exec i { s with pc := s.pc + 2 }

/-- Every step, and every instruction in every state, answers a next state: nothing is refused and nothing ends the run
of the model (60_exceptions.md R220, R230, R231; decision D8, log entry 4). -/
def Obligations.EveryStepAnswersNext : Prop :=
  (∀ s : State, ∃ t, step s = .next t) ∧ ∀ (i : Instr) (s : State), ∃ t, exec i s = .next t

/-- A halted machine's step changes nothing and reports the recorded fault (60_exceptions.md R231, decision D8). -/
def Obligations.HaltedStepChangesNothing : Prop :=
  ∀ s : State, s.halted = true → step s = .next s ∧ s.hostStep = s ∧
    ∀ r, s.fault = some r → s.answer .step = .fault r

/-- The host actions do on a halted machine what they do on a running one, and do not read or write the halt; restore
clears it (60_exceptions.md R231, R235, R247, R255; decisions D8, D18, D26). -/
def Obligations.HostActionsIgnoreTheHalt : Prop :=
  ∀ (s : State) (h : Bool) (f : Option FaultRecord),
    let s' := { s with halted := h, fault := f }
    (∀ a : Action, (a = .tickTimers ∨ (∃ k p, a = .setKey k p) ∨ (∃ bs, a = .load bs) ∨
        ∃ frame e, a = .composite frame e) →
      s'.act a = { s.act a with halted := h, fault := f } ∧ s'.answer a = s.answer a) ∧
    s'.capture = s.capture ∧
    ∀ snap, s'.act (.restore snap) = s.act (.restore snap) ∧ (s'.act (.restore snap)).halted = false ∧
      (s'.act (.restore snap)).fault = none

/-- A fetch above 0xFFE raises FetchOutOfRange before decode, so that no word is recorded (60_exceptions.md R223,
decision D3). -/
def Obligations.FetchPastTheEndFaults : Prop :=
  ∀ s : State, s.halted = false → 0xFFE < s.pc.toNat →
    ∃ t, step s = .next t ∧ FaultTaken s t s.pc none .fetchOutOfRange (.addr s.pc)

/-- A word outside the opcode map raises IllegalInstruction (60_exceptions.md R222, 30_encoding.md R88, decision D2). -/
def Obligations.IllegalWordFaults : Prop :=
  ∀ (s : State) (w : Word), s.halted = false → s.fetch = some w → legalByFamily w = false →
    ∃ t, step s = .next t ∧ FaultTaken s t s.pc (some w) .illegalInstruction (.word w)

/-- A faulting step commits nothing: it leaves the state as it was but for Halted and the record, whose PC is the fetch
address and whose word is the fetched word (60_exceptions.md R230, decision D8). -/
def Obligations.FaultsArePrecise : Prop :=
  ∀ s t : State, s.halted = false → step s = .next t → t.halted = true →
    t = { s with halted := true, fault := t.fault } ∧
    ∃ kind info, t.fault = some { kind := kind, pc := s.pc, word := s.fetch, info := info }

/-- A step of a running machine raises exactly the fault of the table of 60_exceptions.md R220, in the stage order of
R232, and otherwise leaves the machine running (decisions D2 to D8). -/
def Obligations.StepRaisesExactlyTheFaultTable : Prop :=
  ∀ s : State, s.halted = false → s.fault = none → ∃ t, step s = .next t ∧
    t.halted = s.raises.isSome ∧
    t.fault = s.raises.map fun c => { kind := c.1, pc := s.pc, word := s.fetch, info := c.2 }

/-- A halted machine stays halted with the same record, registers, stack and framebuffer, through any actions that are
no restore and no construction (60_exceptions.md R231, R235; decision D8). -/
def Obligations.HaltLastsUntilRestoreOrConstruction : Prop :=
  ∀ (s : State) (l : List Action), s.halted = true → (∀ a ∈ l, a.endsHalt = false) →
    (s.acts l).halted = true ∧ (s.acts l).fault = s.fault ∧ (s.acts l).v = s.v ∧ (s.acts l).i = s.i ∧
    (s.acts l).pc = s.pc ∧ (s.acts l).stack = s.stack ∧ (s.acts l).fb = s.fb

/-! ### Reset and the invariant -/

/-- Every field after construction with the default parameters, and 0x00 above the font after construction with any
(10_state.md R43; all but PC by the decisions D8, D10, D11, D19). -/
def Obligations.ResetLeavesTheTableValues : Prop :=
  let s := State.reset
  (∀ x, s.readV x = 0) ∧ s.i = 0 ∧ s.pc = 0x200 ∧ s.stack = [] ∧ s.dt = 0 ∧ s.st = 0 ∧
  (∀ a, Memory.read s.mem a = if h : a < 80 then Config.defaultFont[a] else 0) ∧
  (∀ cfg a, 80 ≤ a → Memory.read (State.construct cfg).mem a = 0) ∧
  (∀ x y, s.pixel x y = false) ∧ (∀ k, s.keyPressed k = false) ∧
  (∀ x y, gridGet s.vis x y = Config.zeroIntensity) ∧ s.halted = false ∧ s.fault = none

/-- Construction writes the parameter FONT at 0x000..0x04F, before any load, and a load never writes there or anywhere
below 0x200 (70_reset_and_hazards.md R271). -/
def Obligations.ConstructionWritesTheFontAndLoadNeverDoes : Prop :=
  (∀ (cfg : Config) (a : Nat) (h : a < 80), Memory.read (State.construct cfg).mem a = cfg.font[a]) ∧
  ∀ (s t : State) (bytes : List Byte), Memory.wf s.mem → s.load bytes = .next t →
    ∀ a, a < 0x200 → Memory.read t.mem a = Memory.read s.mem a

/-- Boot: construct, then load a ROM of at least one word; the first step fetches the ROM's first two bytes at 0x200,
big-endian, in a machine that is running (70_reset_and_hazards.md R275, R276, 10_state.md R23). -/
def Obligations.BootStartsAtTheFirstRomWord : Prop :=
  ∀ (cfg : Config) (hi lo : Byte) (rest : List Byte), rest.length ≤ 3582 →
    ∃ t, (State.construct cfg).load (hi :: lo :: rest) = .next t ∧ t.pc = 0x200 ∧ t.stack = [] ∧ t.halted = false ∧
      t.fetch = some (hi ++ lo) ∧ ∀ a, a < 80 → Memory.read t.mem a = cfg.font.toList.getD a 0

/-- The invariant holds right after reset (10_state.md R43). -/
def Obligations.ResetMeetsTheInvariant : Prop := StateInv State.reset

/-- Every step keeps the invariant: memory canonical, I at most 0xFFF, PC at most 0x10FE, stack entries at most 0x1000,
the halt recorded at PC, intensities in [0, 1] (10_state.md R25, R30, R44). -/
def Obligations.StepKeepsTheInvariant : Prop :=
  ∀ s t : State, StateInv s → step s = .next t → StateInv t

/-- Every host action keeps the invariant, and a captured snapshot is one a restore may install (60_exceptions.md R250;
44_display.md R183; 10_state.md R25, R44). -/
def Obligations.HostActionsKeepTheInvariant : Prop :=
  ∀ (s : State) (a : Action), StateInv s → a.Admissible → StateInv (s.act a) ∧ SnapshotInv s.capture

/-! ### Control transfer -/

/-- RET pops the top entry into PC unchanged, and raises StackUnderflow on an empty stack; a popped 0x1000 faults at the
next fetch (41_control.md R100; the fault by decision D8). -/
def Obligations.ReturnPopsTheTopEntry : Prop :=
  EncodedAs 0x00EE .ret ∧
  (∀ (s : State) (rest : List Word) (r : Word), s.stack = rest ++ [r] →
    ∃ t, exec .ret s = .next t ∧ t.pc = r ∧ t.stack = rest ∧
      ChangesOnly (fun p => p = .pc ∨ p = .stack) s t ∧
      (s.halted = false → r = 0x1000 → ∃ u, step t = .next u ∧
        FaultTaken t u 0x1000 none .fetchOutOfRange (.addr 0x1000))) ∧
  ∀ s : State, s.stack = [] →
    ∃ t, exec .ret s = .next t ∧ FaultTaken s t (s.pc - 2) (some 0x00EE) .stackUnderflow .none

/-- JP goes to the absolute address, whatever PC was; to itself it is a fixed point of the step, and a jump to 0xFFF
faults at the next fetch (41_control.md R101). -/
def Obligations.JumpGoesToTheAddress : Prop :=
  ∀ nnn : BitVec 12, EncodedAs (0x1#4 ++ nnn) (.jp nnn) ∧
    (∀ s : State, ∃ t, exec (.jp nnn) s = .next t ∧ t.pc.toNat = nnn.toNat ∧ ChangesOnly (fun p => p = .pc) s t ∧
      (s.halted = false → nnn = 0xFFF → ∃ u, step t = .next u ∧
        FaultTaken t u 0xFFF none .fetchOutOfRange (.addr 0xFFF))) ∧
    ∀ s : State, s.halted = false → s.pc = nnn.setWidth 16 → s.fetch = some (0x1#4 ++ nnn) → step s = .next s

/-- CALL pushes the provisional PC a + 2 and goes to the address; with STACK_LIMIT entries on the stack it raises
StackOverflow instead (41_control.md R102, 10_state.md R32; the limit by decision D7). -/
def Obligations.CallPushesTheReturnAddress : Prop :=
  ∀ nnn : BitVec 12, EncodedAs (0x2#4 ++ nnn) (.call nnn) ∧ ∀ s : State,
    (s.cfg.stackLimit ≠ some s.stack.length →
      ∃ t, exec (.call nnn) s = .next t ∧ t.stack = s.stack ++ [s.pc] ∧ t.pc.toNat = nnn.toNat ∧
        ChangesOnly (fun p => p = .pc ∨ p = .stack) s t) ∧
    (s.cfg.stackLimit = some s.stack.length →
      ∃ t, exec (.call nnn) s = .next t ∧
        FaultTaken s t (s.pc - 2) (some (0x2#4 ++ nnn)) .stackOverflow .none)

/-- 3xnn and 4xnn step over one word exactly when their condition holds, and change nothing but PC
(41_control.md R103, R104). -/
def Obligations.SkipsOnImmediate : Prop :=
  ∀ (x : Reg) (nn : Byte),
    EncodedAs (0x3#4 ++ BitVec.ofNat 4 x ++ nn) (.seImm x nn) ∧
    EncodedAs (0x4#4 ++ BitVec.ofNat 4 x ++ nn) (.sneImm x nn) ∧
    ∀ s : State, ∃ t u, exec (.seImm x nn) s = .next t ∧ exec (.sneImm x nn) s = .next u ∧
      t.pc = (if s.readV x = nn then s.pc + 2 else s.pc) ∧
      u.pc = (if s.readV x ≠ nn then s.pc + 2 else s.pc) ∧
      ChangesOnly (fun p => p = .pc) s t ∧ ChangesOnly (fun p => p = .pc) s u

/-- 5xy0 and 9xy0 step over one word exactly when their condition holds, and change nothing but PC; with x = y the first
always skips and the second never does. 5xyN and 9xyN with a nonzero N raise IllegalInstruction (41_control.md R105,
R106; the fault by decisions D2, D8). -/
def Obligations.SkipsOnRegister : Prop :=
  ∀ x y : Reg,
    EncodedAs (0x5#4 ++ BitVec.ofNat 4 x ++ BitVec.ofNat 4 y ++ 0#4) (.seReg x y) ∧
    EncodedAs (0x9#4 ++ BitVec.ofNat 4 x ++ BitVec.ofNat 4 y ++ 0#4) (.sneReg x y) ∧
    (∀ (f n : BitVec 4) (s : State), f = 0x5 ∨ f = 0x9 → n ≠ 0 → s.halted = false →
      s.fetch = some (f ++ BitVec.ofNat 4 x ++ BitVec.ofNat 4 y ++ n) →
      ∃ t, step s = .next t ∧ FaultTaken s t s.pc s.fetch .illegalInstruction
        (.word (f ++ BitVec.ofNat 4 x ++ BitVec.ofNat 4 y ++ n))) ∧
    ∀ s : State, ∃ t u, exec (.seReg x y) s = .next t ∧ exec (.sneReg x y) s = .next u ∧
      t.pc = (if s.readV x = s.readV y then s.pc + 2 else s.pc) ∧
      u.pc = (if s.readV x ≠ s.readV y then s.pc + 2 else s.pc) ∧
      (x = y → t.pc = s.pc + 2 ∧ u.pc = s.pc) ∧
      ChangesOnly (fun p => p = .pc) s t ∧ ChangesOnly (fun p => p = .pc) s u

/-- JP V0 goes to nnn + V0, the sum kept whole: at most 0x10FE, no wrap (41_control.md R107, decision D13). -/
def Obligations.JumpWithOffsetKeepsTheSumWhole : Prop :=
  ∀ nnn : BitVec 12, EncodedAs (0xB#4 ++ nnn) (.jpV0 nnn) ∧ ∀ s : State,
    ∃ t, exec (.jpV0 nnn) s = .next t ∧ t.pc.toNat = nnn.toNat + (s.readV 0).toNat ∧ t.pc.toNat ≤ 0x10FE ∧
      ChangesOnly (fun p => p = .pc) s t

/-! ### Register loads, arithmetic, logic, shifts, random -/

/-- 6xnn loads the byte and 8xy0 copies the register; no flag, nothing else changes (42_register_alu.md R120, R122). -/
def Obligations.LoadsWriteOneRegister : Prop :=
  ∀ (x y : Reg) (nn : Byte),
    EncodedAs (0x6#4 ++ BitVec.ofNat 4 x ++ nn) (.ldImm x nn) ∧
    EncodedAs (0x8#4 ++ BitVec.ofNat 4 x ++ BitVec.ofNat 4 y ++ 0x0#4) (.ldReg x y) ∧
    ∀ s : State, ∃ t u, exec (.ldImm x nn) s = .next t ∧ exec (.ldReg x y) s = .next u ∧
      t.readV x = nn ∧ u.readV x = s.readV y ∧
      ChangesOnly (fun p => p = .v x) s t ∧ ChangesOnly (fun p => p = .v x) s u

/-- 7xnn adds mod 256 and sets no flag: VF changes only when it is Vx (42_register_alu.md R121). -/
def Obligations.AddImmediateWrapsWithoutFlag : Prop :=
  ∀ (x : Reg) (nn : Byte), EncodedAs (0x7#4 ++ BitVec.ofNat 4 x ++ nn) (.addImm x nn) ∧ ∀ s : State,
    ∃ t, exec (.addImm x nn) s = .next t ∧ (t.readV x).toNat = ((s.readV x).toNat + nn.toNat) % 256 ∧
      ChangesOnly (fun p => p = .v x) s t

/-- 8xy1, 8xy2, 8xy3 write OR, AND, XOR of the two registers bit by bit and leave VF alone unless it is Vx
(42_register_alu.md R123, R124, R125). -/
def Obligations.LogicWorksBitByBitWithoutFlag : Prop :=
  ∀ x y : Reg,
    EncodedAs (0x8#4 ++ BitVec.ofNat 4 x ++ BitVec.ofNat 4 y ++ 0x1#4) (.orReg x y) ∧
    EncodedAs (0x8#4 ++ BitVec.ofNat 4 x ++ BitVec.ofNat 4 y ++ 0x2#4) (.andReg x y) ∧
    EncodedAs (0x8#4 ++ BitVec.ofNat 4 x ++ BitVec.ofNat 4 y ++ 0x3#4) (.xorReg x y) ∧
    ∀ s : State, ∃ t₁ t₂ t₃,
      exec (.orReg x y) s = .next t₁ ∧ exec (.andReg x y) s = .next t₂ ∧ exec (.xorReg x y) s = .next t₃ ∧
      (∀ b, (t₁.readV x).getLsbD b = ((s.readV x).getLsbD b || (s.readV y).getLsbD b) ∧
        (t₂.readV x).getLsbD b = ((s.readV x).getLsbD b && (s.readV y).getLsbD b) ∧
        (t₃.readV x).getLsbD b = ((s.readV x).getLsbD b != (s.readV y).getLsbD b)) ∧
      ∀ t ∈ [t₁, t₂, t₃], ChangesOnly (fun p => p = .v x) s t

/-- 8xy4: Vx is the sum mod 256, and VF the carry unless x = F, when the sum replaces it (42_register_alu.md R126). -/
def Obligations.AddSetsCarry : Prop :=
  ∀ x y : Reg, EncodedAs (0x8#4 ++ BitVec.ofNat 4 x ++ BitVec.ofNat 4 y ++ 0x4#4) (.addReg x y) ∧ ∀ s : State,
    ∃ t, exec (.addReg x y) s = .next t ∧
      (t.readV x).toNat = ((s.readV x).toNat + (s.readV y).toNat) % 256 ∧
      (x ≠ vf → t.readV vf = if (s.readV x).toNat + (s.readV y).toNat > 255 then 1 else 0) ∧
      ChangesOnly (fun p => p = .v x ∨ p = .v vf) s t

/-- 8xy5: Vx is Vx - Vy mod 256, and VF is 1 exactly when there is no borrow, unless x = F (42_register_alu.md R127). -/
def Obligations.SubtractSetsNoBorrow : Prop :=
  ∀ x y : Reg, EncodedAs (0x8#4 ++ BitVec.ofNat 4 x ++ BitVec.ofNat 4 y ++ 0x5#4) (.sub x y) ∧ ∀ s : State,
    ∃ t, exec (.sub x y) s = .next t ∧
      ((t.readV x).toNat : Int) = ((s.readV x).toNat - (s.readV y).toNat : Int) % 256 ∧
      (x ≠ vf → t.readV vf = if (s.readV x).toNat ≥ (s.readV y).toNat then 1 else 0) ∧
      ChangesOnly (fun p => p = .v x ∨ p = .v vf) s t

/-- 8xy6: Vx is Vx halved, VF the dropped low bit unless x = F; the y field changes nothing
(42_register_alu.md R128). -/
def Obligations.ShiftRightDropsTheLowBit : Prop :=
  ∀ x y : Reg, EncodedAs (0x8#4 ++ BitVec.ofNat 4 x ++ BitVec.ofNat 4 y ++ 0x6#4) (.shr x y) ∧ ∀ s : State,
    (∀ y', exec (.shr x y') s = exec (.shr x y) s) ∧
    ∃ t, exec (.shr x y) s = .next t ∧
      (t.readV x).toNat = (s.readV x).toNat / 2 ∧
      (x ≠ vf → (t.readV vf).toNat = (s.readV x).toNat % 2) ∧
      ChangesOnly (fun p => p = .v x ∨ p = .v vf) s t

/-- 8xy7: Vx is Vy - Vx mod 256, and VF is 1 exactly when there is no borrow, unless x = F (42_register_alu.md R129). -/
def Obligations.ReverseSubtractSetsNoBorrow : Prop :=
  ∀ x y : Reg, EncodedAs (0x8#4 ++ BitVec.ofNat 4 x ++ BitVec.ofNat 4 y ++ 0x7#4) (.subn x y) ∧ ∀ s : State,
    ∃ t, exec (.subn x y) s = .next t ∧
      ((t.readV x).toNat : Int) = ((s.readV y).toNat - (s.readV x).toNat : Int) % 256 ∧
      (x ≠ vf → t.readV vf = if (s.readV y).toNat ≥ (s.readV x).toNat then 1 else 0) ∧
      ChangesOnly (fun p => p = .v x ∨ p = .v vf) s t

/-- 8xyE: Vx is Vx doubled mod 256, VF the dropped high bit unless x = F; the y field changes nothing
(42_register_alu.md R130). -/
def Obligations.ShiftLeftDropsTheHighBit : Prop :=
  ∀ x y : Reg, EncodedAs (0x8#4 ++ BitVec.ofNat 4 x ++ BitVec.ofNat 4 y ++ 0xE#4) (.shl x y) ∧ ∀ s : State,
    (∀ y', exec (.shl x y') s = exec (.shl x y) s) ∧
    ∃ t, exec (.shl x y) s = .next t ∧
      (t.readV x).toNat = (s.readV x).toNat * 2 % 256 ∧
      (x ≠ vf → (t.readV vf).toNat = (s.readV x).toNat / 128) ∧
      ChangesOnly (fun p => p = .v x ∨ p = .v vf) s t

/-- Cxnn: Vx is this draw's byte AND nn and the next draw is a fresh one; the byte is the free value `Config.rngByte`,
and the statement holds whatever it is (42_register_alu.md R131, decision D16, log entry 3). -/
def Obligations.RandomMasksAFreshByte : Prop :=
  ∀ (x : Reg) (nn : Byte), EncodedAs (0xC#4 ++ BitVec.ofNat 4 x ++ nn) (.rnd x nn) ∧ ∀ s : State,
    ∃ t, exec (.rnd x nn) s = .next t ∧
      (∀ b, (t.readV x).getLsbD b = ((Config.rngByte s.rngDraws).getLsbD b && nn.getLsbD b)) ∧
      t.rngDraws = s.rngDraws + 1 ∧ ChangesOnly (fun p => p = .v x ∨ p = .rngDraws) s t

/-! ### Index register and memory -/

/-- Annn sets I, Fx1E adds Vx mod 4096 with no flag, Fx29 sets I to Vx * 5, Vx not masked
(43_index_memory.md R150, R151, R152). -/
def Obligations.IndexRegisterIsSetAddedAndScaled : Prop :=
  ∀ (nnn : BitVec 12) (x : Reg),
    EncodedAs (0xA#4 ++ nnn) (.ldI nnn) ∧ EncodedAs (0xF#4 ++ BitVec.ofNat 4 x ++ 0x1E#8) (.addI x) ∧
    EncodedAs (0xF#4 ++ BitVec.ofNat 4 x ++ 0x29#8) (.ldF x) ∧
    ∀ s : State, ∃ t₁ t₂ t₃,
      exec (.ldI nnn) s = .next t₁ ∧ exec (.addI x) s = .next t₂ ∧ exec (.ldF x) s = .next t₃ ∧
      t₁.i.toNat = nnn.toNat ∧ t₂.i.toNat = (s.i.toNat + (s.readV x).toNat) % 4096 ∧
      t₃.i.toNat = (s.readV x).toNat * 5 ∧
      ∀ t ∈ [t₁, t₂, t₃], ChangesOnly (fun p => p = .i) s t

/-- Fx33 stores the three decimal digits of Vx at I, I+1, I+2 and nothing else, or raises DataOutOfRange, or
ReservedWrite, and then writes nothing (43_index_memory.md R153; the faults by decisions D4, D5). -/
def Obligations.BcdStoresTheThreeDigits : Prop :=
  ∀ x : Reg, EncodedAs (0xF#4 ++ BitVec.ofNat 4 x ++ 0x33#8) (.ldB x) ∧ ∀ s : State, Memory.wf s.mem →
    (s.i.toNat + 2 ≤ 0xFFF → (s.cfg.reservedWrite = .fault → 0x1FF < s.i.toNat) →
      ∃ t, exec (.ldB x) s = .next t ∧
        (Memory.read t.mem s.i.toNat).toNat = (s.readV x).toNat / 100 ∧
        (Memory.read t.mem (s.i.toNat + 1)).toNat = (s.readV x).toNat / 10 % 10 ∧
        (Memory.read t.mem (s.i.toNat + 2)).toNat = (s.readV x).toNat % 10 ∧
        ChangesOnly (memoryRange s.i.toNat 3) s t) ∧
    (0xFFF < s.i.toNat + 2 →
      ∃ t, exec (.ldB x) s = .next t ∧ FaultTaken s t (s.pc - 2) (some (encode (.ldB x))) .dataOutOfRange (.addr s.i)) ∧
    (s.i.toNat ≤ 0x1FF → s.cfg.reservedWrite = .fault →
      ∃ t, exec (.ldB x) s = .next t ∧ FaultTaken s t (s.pc - 2) (some (encode (.ldB x))) .reservedWrite (.addr s.i))

/-- Fx55 stores V0..Vx at I..I+x and nothing else, I included, or raises DataOutOfRange, or ReservedWrite, and then
writes nothing (43_index_memory.md R154; I unchanged by decision D14, the faults by D4, D5). -/
def Obligations.DumpStoresTheRegisters : Prop :=
  ∀ x : Reg, EncodedAs (0xF#4 ++ BitVec.ofNat 4 x ++ 0x55#8) (.ldMemV x) ∧ ∀ s : State, Memory.wf s.mem →
    (s.i.toNat + x.val ≤ 0xFFF → (s.cfg.reservedWrite = .fault → 0x1FF < s.i.toNat) →
      ∃ t, exec (.ldMemV x) s = .next t ∧
        (∀ k : Reg, k ≤ x → Memory.read t.mem (s.i.toNat + k.val) = s.readV k) ∧
        ChangesOnly (memoryRange s.i.toNat (x.val + 1)) s t) ∧
    (0xFFF < s.i.toNat + x.val →
      ∃ t, exec (.ldMemV x) s = .next t ∧
        FaultTaken s t (s.pc - 2) (some (encode (.ldMemV x))) .dataOutOfRange (.addr s.i)) ∧
    (s.i.toNat ≤ 0x1FF → s.cfg.reservedWrite = .fault →
      ∃ t, exec (.ldMemV x) s = .next t ∧
        FaultTaken s t (s.pc - 2) (some (encode (.ldMemV x))) .reservedWrite (.addr s.i))

/-- Fx65 loads V0..Vx from I..I+x and changes nothing else, I and memory included, or raises DataOutOfRange and loads
nothing (43_index_memory.md R155; I unchanged by decision D14, the fault by D4). -/
def Obligations.LoadFillsTheRegisters : Prop :=
  ∀ x : Reg, EncodedAs (0xF#4 ++ BitVec.ofNat 4 x ++ 0x65#8) (.ldVMem x) ∧ ∀ s : State,
    (s.i.toNat + x.val ≤ 0xFFF →
      ∃ t, exec (.ldVMem x) s = .next t ∧
        (∀ k : Reg, k ≤ x → t.readV k = Memory.read s.mem (s.i.toNat + k.val)) ∧
        ChangesOnly (fun p => ∃ k, k ≤ x ∧ p = .v k) s t) ∧
    (0xFFF < s.i.toNat + x.val →
      ∃ t, exec (.ldVMem x) s = .next t ∧
        FaultTaken s t (s.pc - 2) (some (encode (.ldVMem x))) .dataOutOfRange (.addr s.i))

/-- What a register dump stores is what a later fetch from those addresses reads, with nothing between
(20_memory.md R64, 70_reset_and_hazards.md R284, which the spec marks derived). -/
def Obligations.StoredBytesAreFetched : Prop :=
  ∀ (s : State) (x : Reg) (a : Word) (k j : Reg), Memory.wf s.mem → s.i.toNat + x.val ≤ 0xFFF → 0x1FF < s.i.toNat →
    a.toNat = s.i.toNat + k.val → j.val = k.val + 1 → j ≤ x →
    ∃ t, exec (.ldMemV x) s = .next t ∧ (t.setPc a).fetch = some (s.readV k ++ s.readV j)

/-! ### Display -/

/-- CLS unlights every pixel and changes nothing else, VF and Vis included; a framebuffer read then answers an all-unlit
grid (44_display.md R171). -/
def Obligations.ClearUnlightsEveryPixel : Prop :=
  EncodedAs 0x00E0 .cls ∧ ∀ s : State,
    ∃ t, exec .cls s = .next t ∧ (∀ x y, t.pixel x y = false) ∧
      (∃ g, t.answer .readFb = .frame g ∧ ∀ x y, gridGet g x y = false) ∧ ChangesOnly anyPixel s t

/-- DRW flips exactly the pixels a set sprite bit falls on, wrapping, bit 7 leftmost, and VF is 1 exactly when one of
them was lit, whatever VF was; the coordinates are the old registers even when one is VF. Out of range it raises
DataOutOfRange and draws nothing (44_display.md R172, R173, R174; decisions D4, D9, D12). -/
def Obligations.DrawFlipsTheCoveredPixels : Prop :=
  ∀ (x y : Reg) (n : BitVec 4),
    EncodedAs (0xD#4 ++ BitVec.ofNat 4 x ++ BitVec.ofNat 4 y ++ n) (.drw x y n) ∧ ∀ s : State,
    (n = 0 ∨ s.i.toNat + n.toNat - 1 ≤ 0xFFF →
      ∃ t, exec (.drw x y n) s = .next t ∧
        (∀ px py, t.pixel px py = true ↔
          ¬ (s.pixel px py = true ↔ SpriteCovers s (s.readV x).toNat (s.readV y).toNat n.toNat px py)) ∧
        ((t.readV vf = 1 ∧ ∃ px py, s.pixel px py = true ∧
            SpriteCovers s (s.readV x).toNat (s.readV y).toNat n.toNat px py) ∨
          (t.readV vf = 0 ∧ ∀ px py, s.pixel px py = true →
            ¬ SpriteCovers s (s.readV x).toNat (s.readV y).toNat n.toNat px py)) ∧
        ChangesOnly (fun p => anyPixel p ∨ p = .v vf) s t) ∧
    (n ≠ 0 → 0xFFF < s.i.toNat + n.toNat - 1 →
      ∃ t, exec (.drw x y n) s = .next t ∧
        FaultTaken s t (s.pc - 2) (some (encode (.drw x y n))) .dataOutOfRange (.addr s.i))

/-- Drawing the same sprite twice restores the framebuffer, x and y not F. The second draw collides exactly when a set
sprite bit falls on a pixel that was unlit before the first; so, with no covered pixel lit before, exactly when the
sprite has a set bit (44_display.md R172, R175, 90_conflicts.md C4). The spec marks R175 derived and leaves that last
condition out; log entry 18. Which pixels are covered takes bit 7 as the leftmost column, decision D12 (log entry
15). -/
def Obligations.DrawTwiceRestoresTheFramebuffer : Prop :=
  ∀ (x y : Reg) (n : BitVec 4) (s : State), x ≠ vf → y ≠ vf → s.i.toNat + n.toNat ≤ 4096 →
    let covers := SpriteCovers s (s.readV x).toNat (s.readV y).toNat n.toNat
    ∃ t u, exec (.drw x y n) s = .next t ∧ exec (.drw x y n) t = .next u ∧ u.fb = s.fb ∧
      (u.readV vf = 1 ↔ ∃ px py, s.pixel px py = false ∧ covers px py) ∧
      ((∀ px py, covers px py → s.pixel px py = false) →
        (u.readV vf = 1 ↔ ∃ r col, r < n.toNat ∧ col < 8 ∧
          (Memory.read s.mem (s.i.toNat + r)).getLsbD (7 - col) = true)) ∧
      ChangesOnly (fun p => p = .v vf) s u

/-! ### Keypad and timers -/

/-- SKP and SKNP skip on the level of the latch Vx names and change nothing but PC; a Vx above 15 raises
KeyIndexOutOfRange (45_timers_keypad.md R200, R201; the fault by decision D6). -/
def Obligations.KeySkipsReadTheLatch : Prop :=
  ∀ x : Reg, EncodedAs (0xE#4 ++ BitVec.ofNat 4 x ++ 0x9E#8) (.skp x) ∧
    EncodedAs (0xE#4 ++ BitVec.ofNat 4 x ++ 0xA1#8) (.sknp x) ∧ ∀ s : State,
    (∀ k : KeyId, (s.readV x).toNat = k.val → ∃ t u, exec (.skp x) s = .next t ∧ exec (.sknp x) s = .next u ∧
      t.pc = (if s.keyPressed k then s.pc + 2 else s.pc) ∧ u.pc = (if s.keyPressed k then s.pc else s.pc + 2) ∧
      ChangesOnly (fun p => p = .pc) s t ∧ ChangesOnly (fun p => p = .pc) s u) ∧
    (15 < (s.readV x).toNat → ∃ t u, exec (.skp x) s = .next t ∧ exec (.sknp x) s = .next u ∧
      FaultTaken s t (s.pc - 2) (some (encode (.skp x))) .keyIndexOutOfRange (.key (s.readV x)) ∧
      FaultTaken s u (s.pc - 2) (some (encode (.sknp x))) .keyIndexOutOfRange (.key (s.readV x)))

/-- Fx07 reads DT without changing it, Fx15 and Fx18 write DT and ST, and SoundActive follows ST at once
(45_timers_keypad.md R202, R204, R205). -/
def Obligations.TimersAreReadAndWritten : Prop :=
  ∀ x : Reg, EncodedAs (0xF#4 ++ BitVec.ofNat 4 x ++ 0x07#8) (.ldVxDt x) ∧
    EncodedAs (0xF#4 ++ BitVec.ofNat 4 x ++ 0x15#8) (.ldDt x) ∧
    EncodedAs (0xF#4 ++ BitVec.ofNat 4 x ++ 0x18#8) (.ldSt x) ∧ ∀ s : State,
    ∃ t₁ t₂ t₃, exec (.ldVxDt x) s = .next t₁ ∧ exec (.ldDt x) s = .next t₂ ∧ exec (.ldSt x) s = .next t₃ ∧
      t₁.readV x = s.dt ∧ t₂.dt = s.readV x ∧ t₃.st = s.readV x ∧ (t₃.soundActive = true ↔ s.readV x ≠ 0) ∧
      ChangesOnly (fun p => p = .v x) s t₁ ∧ ChangesOnly (fun p => p = .dt) s t₂ ∧
      ChangesOnly (fun p => p = .st) s t₃

/-- Fx0A takes the lowest pressed key at once and leaves the latches alone; with none pressed it only puts PC back to a
(45_timers_keypad.md R203, decision D15). -/
def Obligations.KeyWaitTakesTheLowestKey : Prop :=
  ∀ x : Reg, EncodedAs (0xF#4 ++ BitVec.ofNat 4 x ++ 0x0A#8) (.ldVxK x) ∧ ∀ s : State,
    (∀ k : KeyId, s.keyPressed k = true → (∀ j, j < k → s.keyPressed j = false) →
      ∃ t, exec (.ldVxK x) s = .next t ∧ (t.readV x).toNat = k.val ∧ ChangesOnly (fun p => p = .v x) s t) ∧
    ((∀ k, s.keyPressed k = false) →
      ∃ t, exec (.ldVxK x) s = .next t ∧ t.pc = s.pc - 2 ∧ ChangesOnly (fun p => p = .pc) s t)

/-- A waiting Fx0A repeats forever as a whole step that changes nothing, while the timers keep ticking: a period of the
driver's loop, whatever its number of steps, is one tick. Once the host presses a key, one step completes it and PC
advances by 2 (70_reset_and_hazards.md R285, 95_test_vectors.md S8; decision D15). -/
def Obligations.KeyWaitRepeatsUntilAKeyIsPressed : Prop :=
  ∀ (s : State) (x : Reg) (k : KeyId), s.halted = false → s.fetch = some (encode (.ldVxK x)) →
    (∀ j, s.keyPressed j = false) → ∀ n : Nat,
      s.acts (List.replicate n .step) = s ∧ s.acts (driverPeriod n) = s.tickTimers ∧
      ((s.acts (List.replicate n .step ++ [.setKey k true, .step])).readV x).toNat = k.val ∧
      (s.acts (List.replicate n .step ++ [.setKey k true, .step])).pc = s.pc + 2

/-! ### The host's actions -/

/-- A tick takes 1 from each nonzero timer and changes nothing else, halted or not; n ticks take n, down to 0
(60_exceptions.md R240). -/
def Obligations.TicksCountDownToZero : Prop :=
  ∀ (s : State) (n : Nat), ChangesOnly (fun p => p = .dt ∨ p = .st) s s.tickTimers ∧
    (0 < s.dt.toNat → s.tickTimers.dt.toNat + 1 = s.dt.toNat) ∧ (s.dt = 0 → s.tickTimers.dt = 0) ∧
    (0 < s.st.toNat → s.tickTimers.st.toNat + 1 = s.st.toNat) ∧ (s.st = 0 → s.tickTimers.st = 0) ∧
    (s.acts (List.replicate n .tickTimers)).dt.toNat = s.dt.toNat - n ∧
    (s.acts (List.replicate n .tickTimers)).st.toNat = s.st.toNat - n

/-- set_key writes the one latch and nothing else, no instruction writes a latch, and a snapshot does not hold them
(60_exceptions.md R243). -/
def Obligations.SetKeyWritesOneLatchAndInstructionsNone : Prop :=
  (∀ (s : State) (k : KeyId) (p : Bool), (s.act (.setKey k p)).keyPressed k = p ∧
    ChangesOnly (fun q => q = .key k) s (s.act (.setKey k p)) ∧ (s.act (.setKey k p)).capture = s.capture) ∧
  (∀ (i : Instr) (s t : State), exec i s = .next t → t.key = s.key) ∧
  ∀ (s : State) (snap : Snapshot), (s.act (.restore snap)).key = s.key

/-- load writes the ROM at 0x200 up and nothing else, or, past 3584 bytes, fails and changes nothing
(70_reset_and_hazards.md R272, 60_exceptions.md R228). -/
def Obligations.LoadCopiesTheRomOrFails : Prop :=
  ∀ (s : State) (bytes : List Byte), Memory.wf s.mem →
    (bytes.length ≤ 3584 → s.answer (.load bytes) = .done ∧
      (∀ k b, bytes[k]? = some b → Memory.read (s.act (.load bytes)).mem (0x200 + k) = b) ∧
      ChangesOnly (memoryRange 0x200 bytes.length) s (s.act (.load bytes))) ∧
    (3584 < bytes.length → s.answer (.load bytes) = .capacityExceeded ∧ s.act (.load bytes) = s)

/-- Capture, then any actions, then restore gives back exactly the captured fields, with Key and Vis as they then are,
and a running machine; a second restore changes nothing (60_exceptions.md R246, R247, R248; decision D18). -/
def Obligations.RestoreGivesBackWhatWasCaptured : Prop :=
  ∀ (s : State) (l : List Action) (snap : Snapshot), s.answer .capture = .snapshot snap → s.act .capture = s ∧
    let t := (s.acts l).act (.restore snap)
    (t.mem = s.mem ∧ t.v = s.v ∧ t.i = s.i ∧ t.pc = s.pc ∧ t.stack = s.stack ∧ t.fb = s.fb ∧ t.dt = s.dt ∧
      t.st = s.st) ∧
    t.key = (s.acts l).key ∧ t.vis = (s.acts l).vis ∧ t.halted = false ∧ t.fault = none ∧
    t.act (.restore snap) = t ∧ t.answer .capture = .snapshot snap

/-- composite sets a lit pixel to 1.0 and multiplies an unlit one by the factor, 0.0 with decay disabled; it changes Vis
alone and answers the new Vis (44_display.md R181, R182; the factor's form by decision D19). -/
def Obligations.CompositeLightsOrDecays : Prop :=
  ∀ (s : State) (frame : Grid Bool) (e : Bool),
    let t := s.act (.composite frame e)
    s.answer (.composite frame e) = .intensities t.vis ∧
    (∀ x y, gridGet t.vis x y = if gridGet frame x y = true then 0x3FF0000000000000
      else intensityMul (gridGet s.vis x y) (if e then s.cfg.decayFactor else 0)) ∧
    (e = false → ∀ x y, gridGet t.vis x y = if gridGet frame x y = true then 0x3FF0000000000000 else 0) ∧
    ChangesOnly (fun p => ∃ x y, p = .vis x y) s t

/-- The product of two intensities in [0, 1] is in [0, 1] and no brighter than the first; times 1.0 it is the first,
times 0.0 it is 0.0 (44_display.md R183, decision D19). -/
def Obligations.DecayNeverBrightens : Prop :=
  ∀ v f : Intensity, wellFormedIntensity v = true → wellFormedIntensity f = true →
    wellFormedIntensity (intensityMul v f) = true ∧ (intensityMul v f).toNat ≤ v.toNat ∧
    intensityMul v Config.fullIntensity = v ∧ intensityMul v Config.zeroIntensity = Config.zeroIntensity

/-- The product of two intensities in [0, 1] is the binary64 value of [0, 1] nearest to the exact product, and where
another is as near, the one with the even significand; values in units of 2^-1074 (44_display.md R183, decision D19). -/
def Obligations.IntensityProductIsNearestEven : Prop :=
  ∀ v f c : Intensity, wellFormedIntensity v = true → wellFormedIntensity f = true → wellFormedIntensity c = true →
    let exact : Int := intensityUnits v * intensityUnits f
    let err (z : Intensity) : Nat := ((intensityUnits z : Int) * 2 ^ 1074 - exact).natAbs
    err (intensityMul v f) ≤ err c ∧
    (err (intensityMul v f) = err c → c = intensityMul v f ∨ (intensityMul v f).toNat % 2 = 0)

/-- The Machine does not depend on the compositor: composite changes Vis alone, and two machines that differ only in
Vis and DECAY_FACTOR stay so through any actions, the composite calls left out of one of them, with the same answers
(44_display.md R185). -/
def Obligations.MachineIgnoresTheCompositor : Prop :=
  (∀ (s : State) (frame : Grid Bool) (e : Bool),
    ChangesOnly (fun p => ∃ x y, p = .vis x y) s (s.act (.composite frame e))) ∧
  ∀ (s s' : State) (l : List Action), s.withoutDisplay = s'.withoutDisplay →
    (s.acts l).withoutDisplay = (s'.acts (l.filter fun a => !a.isComposite)).withoutDisplay ∧
    ∀ a : Action, a.isComposite = false → s.answer a = s'.answer a

/-! ### Whole-machine rules -/

/-- Every instruction either changes only the parts its rule writes, or takes a fault and changes only PC, Halted and
Fault (10_state.md R21, R22, R25, R29, R34 to R38; 20_memory.md R54; 44_display.md R170). That Fx55 and Fx65 leave I
unchanged is decision D14, that Fx0A leaves the latches unchanged is decision D15, and the faults are decisions D4 to D8
(log entry 6); the draw counter Cxnn advances is the model's own (log entry 3). -/
def Obligations.InstructionsWriteOnlyTheirParts : Prop :=
  ∀ (i : Instr) (s : State), Memory.wf s.mem → ∃ t, exec i s = .next t ∧
    (ChangesOnly (InstrWrites i s) s t ∨
      ∃ c, instrRaises i s = some c ∧ FaultTaken s t (s.pc - 2) (some (encode i)) c.1 c.2)

/-- The PC a completed step leaves, for every instruction (10_state.md R24; Bnnn by decision D13). -/
def Obligations.FinalPcFollowsTheTable : Prop :=
  ∀ (s t : State) (w : Word) (i : Instr), s.halted = false → s.fetch = some w → decode w = some i →
    step s = .next t → t.halted = false → t.pc = instrFinalPc i s.pc s

/-- At the end of a run, a fault or a jump to itself, a step changes nothing (70_reset_and_hazards.md R288,
decision D22). -/
def Obligations.EndOfRunIsAFixedPoint : Prop :=
  ∀ s : State, s.endOfRun = true → step s = .next s
end

