-- ==== Sys2Proof/Laws/Decode.lean ====
section
/-!
SUPPORT. The fields of a packed word are what was packed, a register number survives its nibble, and the bytes of a
word give the word back (30_encoding.md R81, 20_memory.md R51).
-/

namespace Sys2Proof

@[simp] theorem toFin_regBits (x : Reg) : (regBits x).toFin = x := by
  revert x; decide

/-! ### Slices of a concatenation -/

theorem slices_nibble_twelve (a : BitVec 4) (b : BitVec 12) :
    (a ++ b).extractLsb' 12 4 = a ∧ (a ++ b).extractLsb' 0 12 = b := by
  refine ⟨?_, ?_⟩ <;> apply BitVec.eq_of_getLsbD_eq <;> intro i hi <;> rw [BitVec.getLsbD_extractLsb'] <;>
    simp only [BitVec.getLsbD_append, hi, decide_true, Bool.true_and] <;> simp [hi]

theorem slices_nibble_nibble_byte (a b : BitVec 4) (c : BitVec 8) :
    (a ++ b ++ c).extractLsb' 12 4 = a ∧ (a ++ b ++ c).extractLsb' 8 4 = b ∧ (a ++ b ++ c).extractLsb' 0 8 = c := by
  refine ⟨?_, ?_, ?_⟩ <;> apply BitVec.eq_of_getLsbD_eq <;> intro i hi <;> rw [BitVec.getLsbD_extractLsb'] <;>
    simp only [BitVec.getLsbD_append, hi, decide_true, Bool.true_and] <;> simp [hi]
  simp [show ¬ 12 + i < 8 by omega, show ¬ 12 + i - 8 < 4 by omega, show 12 + i - 8 - 4 = i by omega, hi]

theorem slices_nibbles (a b c d : BitVec 4) :
    (a ++ b ++ c ++ d).extractLsb' 12 4 = a ∧ (a ++ b ++ c ++ d).extractLsb' 8 4 = b ∧
    (a ++ b ++ c ++ d).extractLsb' 4 4 = c ∧ (a ++ b ++ c ++ d).extractLsb' 0 4 = d := by
  refine ⟨?_, ?_, ?_, ?_⟩ <;> apply BitVec.eq_of_getLsbD_eq <;> intro i hi <;> rw [BitVec.getLsbD_extractLsb'] <;>
    simp only [BitVec.getLsbD_append, hi, decide_true, Bool.true_and] <;> simp [hi]
  · simp [show ¬ 12 + i < 4 by omega, show ¬ 12 + i - 4 < 4 by omega, show ¬ 12 + i - 4 - 4 < 4 by omega,
      show 12 + i - 4 - 4 - 4 = i by omega, hi]
  · simp [show ¬ 8 + i < 4 by omega, show ¬ 8 + i - 4 < 4 by omega, show 8 + i - 4 - 4 = i by omega, hi]

/-! ### Fields of packed words -/

@[simp] theorem fieldF_packNNN (f : BitVec 4) (nnn : BitVec 12) : fieldF (packNNN f nnn) = f :=
  (slices_nibble_twelve f nnn).1

@[simp] theorem fieldNNN_packNNN (f : BitVec 4) (nnn : BitVec 12) : fieldNNN (packNNN f nnn) = nnn :=
  (slices_nibble_twelve f nnn).2

@[simp] theorem fieldF_packXNN (f : BitVec 4) (x : Reg) (nn : Byte) : fieldF (packXNN f x nn) = f :=
  (slices_nibble_nibble_byte f (regBits x) nn).1

@[simp] theorem fieldX_packXNN (f : BitVec 4) (x : Reg) (nn : Byte) : fieldX (packXNN f x nn) = x :=
  (congrArg BitVec.toFin (slices_nibble_nibble_byte f (regBits x) nn).2.1).trans (toFin_regBits x)

@[simp] theorem fieldNN_packXNN (f : BitVec 4) (x : Reg) (nn : Byte) : fieldNN (packXNN f x nn) = nn :=
  (slices_nibble_nibble_byte f (regBits x) nn).2.2

@[simp] theorem fieldF_packXYN (f : BitVec 4) (x y : Reg) (n : BitVec 4) : fieldF (packXYN f x y n) = f :=
  (slices_nibbles f (regBits x) (regBits y) n).1

@[simp] theorem fieldX_packXYN (f : BitVec 4) (x y : Reg) (n : BitVec 4) : fieldX (packXYN f x y n) = x :=
  (congrArg BitVec.toFin (slices_nibbles f (regBits x) (regBits y) n).2.1).trans (toFin_regBits x)

@[simp] theorem fieldY_packXYN (f : BitVec 4) (x y : Reg) (n : BitVec 4) : fieldY (packXYN f x y n) = y :=
  (congrArg BitVec.toFin (slices_nibbles f (regBits x) (regBits y) n).2.2.1).trans (toFin_regBits y)

@[simp] theorem fieldN_packXYN (f : BitVec 4) (x y : Reg) (n : BitVec 4) : fieldN (packXYN f x y n) = n :=
  (slices_nibbles f (regBits x) (regBits y) n).2.2.2

/-- A word is made of its two bytes (20_memory.md R51). -/
@[simp] theorem wordOfBytes_bytes (w : Word) : wordOfBytes (highByte w) (lowByte w) = w := by
  apply BitVec.eq_of_getLsbD_eq
  intro i hi
  simp only [wordOfBytes, highByte, lowByte, BitVec.getLsbD_append, BitVec.getLsbD_extractLsb']
  split
  · rename_i h; simp [h]
  · rename_i h
    simp [show i - 8 < 8 by omega, show 8 + (i - 8) = i by omega]

end Sys2Proof
end

