-- ==== Sys2Proof/Laws/State.lean ====
section
/-!
SUPPORT. The small lemmas of State: for each update and each field, what the field holds after the update, true by
rfl, so that no later proof unfolds a record update. Registers, latches and grid elements follow through their
accessors.
-/

namespace Sys2Proof.Machine

/-! ### writeV -/

@[simp] theorem State.writeV_cfg (s : State) (x : Reg) (b : Byte) :
    (s.writeV x b).cfg = s.cfg := rfl
@[simp] theorem State.writeV_v (s : State) (x : Reg) (b : Byte) :
    (s.writeV x b).v = s.v.set x.val b := rfl
@[simp] theorem State.writeV_i (s : State) (x : Reg) (b : Byte) :
    (s.writeV x b).i = s.i := rfl
@[simp] theorem State.writeV_pc (s : State) (x : Reg) (b : Byte) :
    (s.writeV x b).pc = s.pc := rfl
@[simp] theorem State.writeV_stack (s : State) (x : Reg) (b : Byte) :
    (s.writeV x b).stack = s.stack := rfl
@[simp] theorem State.writeV_mem (s : State) (x : Reg) (b : Byte) :
    (s.writeV x b).mem = s.mem := rfl
@[simp] theorem State.writeV_fb (s : State) (x : Reg) (b : Byte) :
    (s.writeV x b).fb = s.fb := rfl
@[simp] theorem State.writeV_dt (s : State) (x : Reg) (b : Byte) :
    (s.writeV x b).dt = s.dt := rfl
@[simp] theorem State.writeV_st (s : State) (x : Reg) (b : Byte) :
    (s.writeV x b).st = s.st := rfl
@[simp] theorem State.writeV_key (s : State) (x : Reg) (b : Byte) :
    (s.writeV x b).key = s.key := rfl
@[simp] theorem State.writeV_vis (s : State) (x : Reg) (b : Byte) :
    (s.writeV x b).vis = s.vis := rfl
@[simp] theorem State.writeV_halted (s : State) (x : Reg) (b : Byte) :
    (s.writeV x b).halted = s.halted := rfl
@[simp] theorem State.writeV_fault (s : State) (x : Reg) (b : Byte) :
    (s.writeV x b).fault = s.fault := rfl
@[simp] theorem State.writeV_rngDraws (s : State) (x : Reg) (b : Byte) :
    (s.writeV x b).rngDraws = s.rngDraws := rfl

/-! ### writeFirst -/

@[simp] theorem State.writeFirst_cfg (s : State) (bs : List Byte) :
    (s.writeFirst bs).cfg = s.cfg := rfl
@[simp] theorem State.writeFirst_v (s : State) (bs : List Byte) :
    (s.writeFirst bs).v = vectorOf 16 fun k => (bs[k.val]?).getD (s.readV k) := rfl
@[simp] theorem State.writeFirst_i (s : State) (bs : List Byte) :
    (s.writeFirst bs).i = s.i := rfl
@[simp] theorem State.writeFirst_pc (s : State) (bs : List Byte) :
    (s.writeFirst bs).pc = s.pc := rfl
@[simp] theorem State.writeFirst_stack (s : State) (bs : List Byte) :
    (s.writeFirst bs).stack = s.stack := rfl
@[simp] theorem State.writeFirst_mem (s : State) (bs : List Byte) :
    (s.writeFirst bs).mem = s.mem := rfl
@[simp] theorem State.writeFirst_fb (s : State) (bs : List Byte) :
    (s.writeFirst bs).fb = s.fb := rfl
@[simp] theorem State.writeFirst_dt (s : State) (bs : List Byte) :
    (s.writeFirst bs).dt = s.dt := rfl
@[simp] theorem State.writeFirst_st (s : State) (bs : List Byte) :
    (s.writeFirst bs).st = s.st := rfl
@[simp] theorem State.writeFirst_key (s : State) (bs : List Byte) :
    (s.writeFirst bs).key = s.key := rfl
@[simp] theorem State.writeFirst_vis (s : State) (bs : List Byte) :
    (s.writeFirst bs).vis = s.vis := rfl
@[simp] theorem State.writeFirst_halted (s : State) (bs : List Byte) :
    (s.writeFirst bs).halted = s.halted := rfl
@[simp] theorem State.writeFirst_fault (s : State) (bs : List Byte) :
    (s.writeFirst bs).fault = s.fault := rfl
@[simp] theorem State.writeFirst_rngDraws (s : State) (bs : List Byte) :
    (s.writeFirst bs).rngDraws = s.rngDraws := rfl

/-! ### setI -/

@[simp] theorem State.setI_cfg (s : State) (a : Word) :
    (s.setI a).cfg = s.cfg := rfl
@[simp] theorem State.setI_v (s : State) (a : Word) :
    (s.setI a).v = s.v := rfl
@[simp] theorem State.setI_i (s : State) (a : Word) :
    (s.setI a).i = a := rfl
@[simp] theorem State.setI_pc (s : State) (a : Word) :
    (s.setI a).pc = s.pc := rfl
@[simp] theorem State.setI_stack (s : State) (a : Word) :
    (s.setI a).stack = s.stack := rfl
@[simp] theorem State.setI_mem (s : State) (a : Word) :
    (s.setI a).mem = s.mem := rfl
@[simp] theorem State.setI_fb (s : State) (a : Word) :
    (s.setI a).fb = s.fb := rfl
@[simp] theorem State.setI_dt (s : State) (a : Word) :
    (s.setI a).dt = s.dt := rfl
@[simp] theorem State.setI_st (s : State) (a : Word) :
    (s.setI a).st = s.st := rfl
@[simp] theorem State.setI_key (s : State) (a : Word) :
    (s.setI a).key = s.key := rfl
@[simp] theorem State.setI_vis (s : State) (a : Word) :
    (s.setI a).vis = s.vis := rfl
@[simp] theorem State.setI_halted (s : State) (a : Word) :
    (s.setI a).halted = s.halted := rfl
@[simp] theorem State.setI_fault (s : State) (a : Word) :
    (s.setI a).fault = s.fault := rfl
@[simp] theorem State.setI_rngDraws (s : State) (a : Word) :
    (s.setI a).rngDraws = s.rngDraws := rfl

/-! ### setPc -/

@[simp] theorem State.setPc_cfg (s : State) (a : Word) :
    (s.setPc a).cfg = s.cfg := rfl
@[simp] theorem State.setPc_v (s : State) (a : Word) :
    (s.setPc a).v = s.v := rfl
@[simp] theorem State.setPc_i (s : State) (a : Word) :
    (s.setPc a).i = s.i := rfl
@[simp] theorem State.setPc_pc (s : State) (a : Word) :
    (s.setPc a).pc = a := rfl
@[simp] theorem State.setPc_stack (s : State) (a : Word) :
    (s.setPc a).stack = s.stack := rfl
@[simp] theorem State.setPc_mem (s : State) (a : Word) :
    (s.setPc a).mem = s.mem := rfl
@[simp] theorem State.setPc_fb (s : State) (a : Word) :
    (s.setPc a).fb = s.fb := rfl
@[simp] theorem State.setPc_dt (s : State) (a : Word) :
    (s.setPc a).dt = s.dt := rfl
@[simp] theorem State.setPc_st (s : State) (a : Word) :
    (s.setPc a).st = s.st := rfl
@[simp] theorem State.setPc_key (s : State) (a : Word) :
    (s.setPc a).key = s.key := rfl
@[simp] theorem State.setPc_vis (s : State) (a : Word) :
    (s.setPc a).vis = s.vis := rfl
@[simp] theorem State.setPc_halted (s : State) (a : Word) :
    (s.setPc a).halted = s.halted := rfl
@[simp] theorem State.setPc_fault (s : State) (a : Word) :
    (s.setPc a).fault = s.fault := rfl
@[simp] theorem State.setPc_rngDraws (s : State) (a : Word) :
    (s.setPc a).rngDraws = s.rngDraws := rfl

/-! ### setDt -/

@[simp] theorem State.setDt_cfg (s : State) (b : Byte) :
    (s.setDt b).cfg = s.cfg := rfl
@[simp] theorem State.setDt_v (s : State) (b : Byte) :
    (s.setDt b).v = s.v := rfl
@[simp] theorem State.setDt_i (s : State) (b : Byte) :
    (s.setDt b).i = s.i := rfl
@[simp] theorem State.setDt_pc (s : State) (b : Byte) :
    (s.setDt b).pc = s.pc := rfl
@[simp] theorem State.setDt_stack (s : State) (b : Byte) :
    (s.setDt b).stack = s.stack := rfl
@[simp] theorem State.setDt_mem (s : State) (b : Byte) :
    (s.setDt b).mem = s.mem := rfl
@[simp] theorem State.setDt_fb (s : State) (b : Byte) :
    (s.setDt b).fb = s.fb := rfl
@[simp] theorem State.setDt_dt (s : State) (b : Byte) :
    (s.setDt b).dt = b := rfl
@[simp] theorem State.setDt_st (s : State) (b : Byte) :
    (s.setDt b).st = s.st := rfl
@[simp] theorem State.setDt_key (s : State) (b : Byte) :
    (s.setDt b).key = s.key := rfl
@[simp] theorem State.setDt_vis (s : State) (b : Byte) :
    (s.setDt b).vis = s.vis := rfl
@[simp] theorem State.setDt_halted (s : State) (b : Byte) :
    (s.setDt b).halted = s.halted := rfl
@[simp] theorem State.setDt_fault (s : State) (b : Byte) :
    (s.setDt b).fault = s.fault := rfl
@[simp] theorem State.setDt_rngDraws (s : State) (b : Byte) :
    (s.setDt b).rngDraws = s.rngDraws := rfl

/-! ### setSt -/

@[simp] theorem State.setSt_cfg (s : State) (b : Byte) :
    (s.setSt b).cfg = s.cfg := rfl
@[simp] theorem State.setSt_v (s : State) (b : Byte) :
    (s.setSt b).v = s.v := rfl
@[simp] theorem State.setSt_i (s : State) (b : Byte) :
    (s.setSt b).i = s.i := rfl
@[simp] theorem State.setSt_pc (s : State) (b : Byte) :
    (s.setSt b).pc = s.pc := rfl
@[simp] theorem State.setSt_stack (s : State) (b : Byte) :
    (s.setSt b).stack = s.stack := rfl
@[simp] theorem State.setSt_mem (s : State) (b : Byte) :
    (s.setSt b).mem = s.mem := rfl
@[simp] theorem State.setSt_fb (s : State) (b : Byte) :
    (s.setSt b).fb = s.fb := rfl
@[simp] theorem State.setSt_dt (s : State) (b : Byte) :
    (s.setSt b).dt = s.dt := rfl
@[simp] theorem State.setSt_st (s : State) (b : Byte) :
    (s.setSt b).st = b := rfl
@[simp] theorem State.setSt_key (s : State) (b : Byte) :
    (s.setSt b).key = s.key := rfl
@[simp] theorem State.setSt_vis (s : State) (b : Byte) :
    (s.setSt b).vis = s.vis := rfl
@[simp] theorem State.setSt_halted (s : State) (b : Byte) :
    (s.setSt b).halted = s.halted := rfl
@[simp] theorem State.setSt_fault (s : State) (b : Byte) :
    (s.setSt b).fault = s.fault := rfl
@[simp] theorem State.setSt_rngDraws (s : State) (b : Byte) :
    (s.setSt b).rngDraws = s.rngDraws := rfl

/-! ### setFb -/

@[simp] theorem State.setFb_cfg (s : State) (g : Grid Bool) :
    (s.setFb g).cfg = s.cfg := rfl
@[simp] theorem State.setFb_v (s : State) (g : Grid Bool) :
    (s.setFb g).v = s.v := rfl
@[simp] theorem State.setFb_i (s : State) (g : Grid Bool) :
    (s.setFb g).i = s.i := rfl
@[simp] theorem State.setFb_pc (s : State) (g : Grid Bool) :
    (s.setFb g).pc = s.pc := rfl
@[simp] theorem State.setFb_stack (s : State) (g : Grid Bool) :
    (s.setFb g).stack = s.stack := rfl
@[simp] theorem State.setFb_mem (s : State) (g : Grid Bool) :
    (s.setFb g).mem = s.mem := rfl
@[simp] theorem State.setFb_fb (s : State) (g : Grid Bool) :
    (s.setFb g).fb = g := rfl
@[simp] theorem State.setFb_dt (s : State) (g : Grid Bool) :
    (s.setFb g).dt = s.dt := rfl
@[simp] theorem State.setFb_st (s : State) (g : Grid Bool) :
    (s.setFb g).st = s.st := rfl
@[simp] theorem State.setFb_key (s : State) (g : Grid Bool) :
    (s.setFb g).key = s.key := rfl
@[simp] theorem State.setFb_vis (s : State) (g : Grid Bool) :
    (s.setFb g).vis = s.vis := rfl
@[simp] theorem State.setFb_halted (s : State) (g : Grid Bool) :
    (s.setFb g).halted = s.halted := rfl
@[simp] theorem State.setFb_fault (s : State) (g : Grid Bool) :
    (s.setFb g).fault = s.fault := rfl
@[simp] theorem State.setFb_rngDraws (s : State) (g : Grid Bool) :
    (s.setFb g).rngDraws = s.rngDraws := rfl

/-! ### drawn -/

@[simp] theorem State.drawn_cfg (s : State) :
    s.drawn.cfg = s.cfg := rfl
@[simp] theorem State.drawn_v (s : State) :
    s.drawn.v = s.v := rfl
@[simp] theorem State.drawn_i (s : State) :
    s.drawn.i = s.i := rfl
@[simp] theorem State.drawn_pc (s : State) :
    s.drawn.pc = s.pc := rfl
@[simp] theorem State.drawn_stack (s : State) :
    s.drawn.stack = s.stack := rfl
@[simp] theorem State.drawn_mem (s : State) :
    s.drawn.mem = s.mem := rfl
@[simp] theorem State.drawn_fb (s : State) :
    s.drawn.fb = s.fb := rfl
@[simp] theorem State.drawn_dt (s : State) :
    s.drawn.dt = s.dt := rfl
@[simp] theorem State.drawn_st (s : State) :
    s.drawn.st = s.st := rfl
@[simp] theorem State.drawn_key (s : State) :
    s.drawn.key = s.key := rfl
@[simp] theorem State.drawn_vis (s : State) :
    s.drawn.vis = s.vis := rfl
@[simp] theorem State.drawn_halted (s : State) :
    s.drawn.halted = s.halted := rfl
@[simp] theorem State.drawn_fault (s : State) :
    s.drawn.fault = s.fault := rfl
@[simp] theorem State.drawn_rngDraws (s : State) :
    s.drawn.rngDraws = s.rngDraws + 1 := rfl

/-! ### provisional -/

@[simp] theorem State.provisional_cfg (s : State) :
    s.provisional.cfg = s.cfg := rfl
@[simp] theorem State.provisional_v (s : State) :
    s.provisional.v = s.v := rfl
@[simp] theorem State.provisional_i (s : State) :
    s.provisional.i = s.i := rfl
@[simp] theorem State.provisional_pc (s : State) :
    s.provisional.pc = s.pc + 2 := rfl
@[simp] theorem State.provisional_stack (s : State) :
    s.provisional.stack = s.stack := rfl
@[simp] theorem State.provisional_mem (s : State) :
    s.provisional.mem = s.mem := rfl
@[simp] theorem State.provisional_fb (s : State) :
    s.provisional.fb = s.fb := rfl
@[simp] theorem State.provisional_dt (s : State) :
    s.provisional.dt = s.dt := rfl
@[simp] theorem State.provisional_st (s : State) :
    s.provisional.st = s.st := rfl
@[simp] theorem State.provisional_key (s : State) :
    s.provisional.key = s.key := rfl
@[simp] theorem State.provisional_vis (s : State) :
    s.provisional.vis = s.vis := rfl
@[simp] theorem State.provisional_halted (s : State) :
    s.provisional.halted = s.halted := rfl
@[simp] theorem State.provisional_fault (s : State) :
    s.provisional.fault = s.fault := rfl
@[simp] theorem State.provisional_rngDraws (s : State) :
    s.provisional.rngDraws = s.rngDraws := rfl

/-! ### takeFault -/

@[simp] theorem State.takeFault_cfg (s : State) (a : Word) (w : Option Word) (c : Cause) :
    (s.takeFault a w c).cfg = s.cfg := rfl
@[simp] theorem State.takeFault_v (s : State) (a : Word) (w : Option Word) (c : Cause) :
    (s.takeFault a w c).v = s.v := rfl
@[simp] theorem State.takeFault_i (s : State) (a : Word) (w : Option Word) (c : Cause) :
    (s.takeFault a w c).i = s.i := rfl
@[simp] theorem State.takeFault_pc (s : State) (a : Word) (w : Option Word) (c : Cause) :
    (s.takeFault a w c).pc = a := rfl
@[simp] theorem State.takeFault_stack (s : State) (a : Word) (w : Option Word) (c : Cause) :
    (s.takeFault a w c).stack = s.stack := rfl
@[simp] theorem State.takeFault_mem (s : State) (a : Word) (w : Option Word) (c : Cause) :
    (s.takeFault a w c).mem = s.mem := rfl
@[simp] theorem State.takeFault_fb (s : State) (a : Word) (w : Option Word) (c : Cause) :
    (s.takeFault a w c).fb = s.fb := rfl
@[simp] theorem State.takeFault_dt (s : State) (a : Word) (w : Option Word) (c : Cause) :
    (s.takeFault a w c).dt = s.dt := rfl
@[simp] theorem State.takeFault_st (s : State) (a : Word) (w : Option Word) (c : Cause) :
    (s.takeFault a w c).st = s.st := rfl
@[simp] theorem State.takeFault_key (s : State) (a : Word) (w : Option Word) (c : Cause) :
    (s.takeFault a w c).key = s.key := rfl
@[simp] theorem State.takeFault_vis (s : State) (a : Word) (w : Option Word) (c : Cause) :
    (s.takeFault a w c).vis = s.vis := rfl
@[simp] theorem State.takeFault_halted (s : State) (a : Word) (w : Option Word) (c : Cause) :
    (s.takeFault a w c).halted = true := rfl
@[simp] theorem State.takeFault_fault (s : State) (a : Word) (w : Option Word) (c : Cause) :
    (s.takeFault a w c).fault = some { kind := c.1, pc := a, word := w, info := c.2 } := rfl
@[simp] theorem State.takeFault_rngDraws (s : State) (a : Word) (w : Option Word) (c : Cause) :
    (s.takeFault a w c).rngDraws = s.rngDraws := rfl

/-! ### tickTimers -/

@[simp] theorem State.tickTimers_cfg (s : State) :
    s.tickTimers.cfg = s.cfg := rfl
@[simp] theorem State.tickTimers_v (s : State) :
    s.tickTimers.v = s.v := rfl
@[simp] theorem State.tickTimers_i (s : State) :
    s.tickTimers.i = s.i := rfl
@[simp] theorem State.tickTimers_pc (s : State) :
    s.tickTimers.pc = s.pc := rfl
@[simp] theorem State.tickTimers_stack (s : State) :
    s.tickTimers.stack = s.stack := rfl
@[simp] theorem State.tickTimers_mem (s : State) :
    s.tickTimers.mem = s.mem := rfl
@[simp] theorem State.tickTimers_fb (s : State) :
    s.tickTimers.fb = s.fb := rfl
@[simp] theorem State.tickTimers_dt (s : State) :
    s.tickTimers.dt = countDown s.dt := rfl
@[simp] theorem State.tickTimers_st (s : State) :
    s.tickTimers.st = countDown s.st := rfl
@[simp] theorem State.tickTimers_key (s : State) :
    s.tickTimers.key = s.key := rfl
@[simp] theorem State.tickTimers_vis (s : State) :
    s.tickTimers.vis = s.vis := rfl
@[simp] theorem State.tickTimers_halted (s : State) :
    s.tickTimers.halted = s.halted := rfl
@[simp] theorem State.tickTimers_fault (s : State) :
    s.tickTimers.fault = s.fault := rfl
@[simp] theorem State.tickTimers_rngDraws (s : State) :
    s.tickTimers.rngDraws = s.rngDraws := rfl

/-! ### setKey -/

@[simp] theorem State.setKey_cfg (s : State) (k : KeyId) (p : Bool) :
    (s.setKey k p).cfg = s.cfg := rfl
@[simp] theorem State.setKey_v (s : State) (k : KeyId) (p : Bool) :
    (s.setKey k p).v = s.v := rfl
@[simp] theorem State.setKey_i (s : State) (k : KeyId) (p : Bool) :
    (s.setKey k p).i = s.i := rfl
@[simp] theorem State.setKey_pc (s : State) (k : KeyId) (p : Bool) :
    (s.setKey k p).pc = s.pc := rfl
@[simp] theorem State.setKey_stack (s : State) (k : KeyId) (p : Bool) :
    (s.setKey k p).stack = s.stack := rfl
@[simp] theorem State.setKey_mem (s : State) (k : KeyId) (p : Bool) :
    (s.setKey k p).mem = s.mem := rfl
@[simp] theorem State.setKey_fb (s : State) (k : KeyId) (p : Bool) :
    (s.setKey k p).fb = s.fb := rfl
@[simp] theorem State.setKey_dt (s : State) (k : KeyId) (p : Bool) :
    (s.setKey k p).dt = s.dt := rfl
@[simp] theorem State.setKey_st (s : State) (k : KeyId) (p : Bool) :
    (s.setKey k p).st = s.st := rfl
@[simp] theorem State.setKey_key (s : State) (k : KeyId) (p : Bool) :
    (s.setKey k p).key = s.key.set k.val p := rfl
@[simp] theorem State.setKey_vis (s : State) (k : KeyId) (p : Bool) :
    (s.setKey k p).vis = s.vis := rfl
@[simp] theorem State.setKey_halted (s : State) (k : KeyId) (p : Bool) :
    (s.setKey k p).halted = s.halted := rfl
@[simp] theorem State.setKey_fault (s : State) (k : KeyId) (p : Bool) :
    (s.setKey k p).fault = s.fault := rfl
@[simp] theorem State.setKey_rngDraws (s : State) (k : KeyId) (p : Bool) :
    (s.setKey k p).rngDraws = s.rngDraws := rfl

/-! ### composite -/

@[simp] theorem State.composite_cfg (s : State) (frame : Grid Bool) (e : Bool) :
    (s.composite frame e).cfg = s.cfg := rfl
@[simp] theorem State.composite_v (s : State) (frame : Grid Bool) (e : Bool) :
    (s.composite frame e).v = s.v := rfl
@[simp] theorem State.composite_i (s : State) (frame : Grid Bool) (e : Bool) :
    (s.composite frame e).i = s.i := rfl
@[simp] theorem State.composite_pc (s : State) (frame : Grid Bool) (e : Bool) :
    (s.composite frame e).pc = s.pc := rfl
@[simp] theorem State.composite_stack (s : State) (frame : Grid Bool) (e : Bool) :
    (s.composite frame e).stack = s.stack := rfl
@[simp] theorem State.composite_mem (s : State) (frame : Grid Bool) (e : Bool) :
    (s.composite frame e).mem = s.mem := rfl
@[simp] theorem State.composite_fb (s : State) (frame : Grid Bool) (e : Bool) :
    (s.composite frame e).fb = s.fb := rfl
@[simp] theorem State.composite_dt (s : State) (frame : Grid Bool) (e : Bool) :
    (s.composite frame e).dt = s.dt := rfl
@[simp] theorem State.composite_st (s : State) (frame : Grid Bool) (e : Bool) :
    (s.composite frame e).st = s.st := rfl
@[simp] theorem State.composite_key (s : State) (frame : Grid Bool) (e : Bool) :
    (s.composite frame e).key = s.key := rfl
@[simp] theorem State.composite_halted (s : State) (frame : Grid Bool) (e : Bool) :
    (s.composite frame e).halted = s.halted := rfl
@[simp] theorem State.composite_fault (s : State) (frame : Grid Bool) (e : Bool) :
    (s.composite frame e).fault = s.fault := rfl
@[simp] theorem State.composite_rngDraws (s : State) (frame : Grid Bool) (e : Bool) :
    (s.composite frame e).rngDraws = s.rngDraws := rfl

/-! ### restore -/

@[simp] theorem State.restore_cfg (s : State) (snap : Snapshot) :
    (s.restore snap).cfg = s.cfg := rfl
@[simp] theorem State.restore_v (s : State) (snap : Snapshot) :
    (s.restore snap).v = snap.v := rfl
@[simp] theorem State.restore_i (s : State) (snap : Snapshot) :
    (s.restore snap).i = snap.i := rfl
@[simp] theorem State.restore_pc (s : State) (snap : Snapshot) :
    (s.restore snap).pc = snap.pc := rfl
@[simp] theorem State.restore_stack (s : State) (snap : Snapshot) :
    (s.restore snap).stack = snap.stack := rfl
@[simp] theorem State.restore_mem (s : State) (snap : Snapshot) :
    (s.restore snap).mem = snap.mem := rfl
@[simp] theorem State.restore_fb (s : State) (snap : Snapshot) :
    (s.restore snap).fb = snap.fb := rfl
@[simp] theorem State.restore_dt (s : State) (snap : Snapshot) :
    (s.restore snap).dt = snap.dt := rfl
@[simp] theorem State.restore_st (s : State) (snap : Snapshot) :
    (s.restore snap).st = snap.st := rfl
@[simp] theorem State.restore_key (s : State) (snap : Snapshot) :
    (s.restore snap).key = s.key := rfl
@[simp] theorem State.restore_vis (s : State) (snap : Snapshot) :
    (s.restore snap).vis = s.vis := rfl
@[simp] theorem State.restore_halted (s : State) (snap : Snapshot) :
    (s.restore snap).halted = false := rfl
@[simp] theorem State.restore_fault (s : State) (snap : Snapshot) :
    (s.restore snap).fault = none := rfl
@[simp] theorem State.restore_rngDraws (s : State) (snap : Snapshot) :
    (s.restore snap).rngDraws = s.rngDraws := rfl

/-! ### Runs -/

@[simp] theorem State.acts_nil (s : State) : s.acts [] = s := rfl
@[simp] theorem State.acts_cons (s : State) (a : Action) (l : List Action) : s.acts (a :: l) = (s.act a).acts l := rfl

/-- A run of two lists of actions is the second run from where the first ends. -/
theorem State.acts_append (l l' : List Action) : ∀ s : State, s.acts (l ++ l') = (s.acts l).acts l' := by
  induction l with
  | nil => intro s; rfl
  | cons a l ih => intro s; exact ih (s.act a)

/-! ### Accessors -/

@[simp] theorem getElem_vectorOf {α : Type} (n : Nat) (f : Fin n → α) (k : Nat) (h : k < n) :
    (vectorOf n f)[k] = f ⟨k, h⟩ := by
  simp [vectorOf]

@[simp] theorem State.readV_writeV (s : State) (x y : Reg) (b : Byte) :
    (s.writeV x b).readV y = if y = x then b else s.readV y := by
  simp only [State.readV, State.writeV, Vector.getElem_set, Fin.ext_iff, eq_comm]

@[simp] theorem State.readV_writeFirst (s : State) (bs : List Byte) (y : Reg) :
    (s.writeFirst bs).readV y = (bs[y.val]?).getD (s.readV y) := by
  simp [State.readV, State.writeFirst]

/-- A register reads the same in two states with the same V. -/
theorem State.readV_congr {s t : State} (h : t.v = s.v) (x : Reg) : t.readV x = s.readV x := by
  simp only [State.readV, h]

/-- A latch reads the same in two states with the same Key. -/
theorem State.keyPressed_congr {s t : State} (h : t.key = s.key) (k : KeyId) : t.keyPressed k = s.keyPressed k := by
  simp only [State.keyPressed, h]

/-- A pixel reads the same in two states with the same FB. -/
theorem State.pixel_congr {s t : State} (h : t.fb = s.fb) (x : Fin 64) (y : Fin 32) : t.pixel x y = s.pixel x y := by
  simp only [State.pixel, h]

@[simp] theorem State.readV_setI (s : State) (a : Word) (y : Reg) : (s.setI a).readV y = s.readV y := rfl
@[simp] theorem State.readV_setPc (s : State) (a : Word) (y : Reg) : (s.setPc a).readV y = s.readV y := rfl
@[simp] theorem State.readV_setDt (s : State) (b : Byte) (y : Reg) : (s.setDt b).readV y = s.readV y := rfl
@[simp] theorem State.readV_setSt (s : State) (b : Byte) (y : Reg) : (s.setSt b).readV y = s.readV y := rfl
@[simp] theorem State.readV_setFb (s : State) (g : Grid Bool) (y : Reg) : (s.setFb g).readV y = s.readV y := rfl
@[simp] theorem State.readV_drawn (s : State) (y : Reg) : s.drawn.readV y = s.readV y := rfl
@[simp] theorem State.readV_provisional (s : State) (y : Reg) : s.provisional.readV y = s.readV y := rfl

@[simp] theorem State.keyPressed_setKey (s : State) (k j : KeyId) (p : Bool) :
    (s.setKey k p).keyPressed j = if j = k then p else s.keyPressed j := by
  simp only [State.keyPressed, State.setKey, Vector.getElem_set, Fin.ext_iff, eq_comm]

@[simp] theorem State.keyPressed_setPc (s : State) (a : Word) (k : KeyId) :
    (s.setPc a).keyPressed k = s.keyPressed k := rfl
@[simp] theorem State.keyPressed_provisional (s : State) (k : KeyId) :
    s.provisional.keyPressed k = s.keyPressed k := rfl
@[simp] theorem State.keyPressed_writeV (s : State) (x : Reg) (b : Byte) (k : KeyId) :
    (s.writeV x b).keyPressed k = s.keyPressed k := rfl

/-! ### Grids -/

@[simp] theorem gridGet_gridSet {α : Type} (g : Grid α) (x x' : Fin 64) (y y' : Fin 32) (a : α) :
    gridGet (gridSet g x y a) x' y' = if x' = x ∧ y' = y then a else gridGet g x' y' := by
  unfold gridGet gridSet
  rw [Vector.getElem_set]
  by_cases hx : x = x'
  · subst hx
    simp only [if_true, Vector.getElem_set, Fin.ext_iff, true_and, eq_comm]
  · have hv : ¬ x.val = x'.val := fun h => hx (Fin.ext h)
    rw [if_neg hv, if_neg (fun h => hx h.1.symm)]

@[simp] theorem gridGet_gridOf {α : Type} (f : Fin 64 → Fin 32 → α) (x : Fin 64) (y : Fin 32) :
    gridGet (gridOf f) x y = f x y := by
  simp [gridGet, gridOf]

@[simp] theorem gridGet_replicate {α : Type} (a : α) (x : Fin 64) (y : Fin 32) :
    gridGet (Vector.replicate 64 (Vector.replicate 32 a)) x y = a := by
  simp [gridGet]

/-- Two grids with the same elements are equal. -/
theorem grid_ext {α : Type} {g h : Grid α} (e : ∀ x y, gridGet g x y = gridGet h x y) : g = h := by
  refine Vector.ext fun x hx => Vector.ext fun y hy => ?_
  exact e ⟨x, hx⟩ ⟨y, hy⟩

@[simp] theorem gridGet_composite (s : State) (frame : Grid Bool) (e : Bool) (x : Fin 64) (y : Fin 32) :
    gridGet (s.composite frame e).vis x y =
      if gridGet frame x y then Config.fullIntensity else intensityMul (gridGet s.vis x y) (s.decayBy e) := by
  simp [State.composite, decayedGrid]

end Sys2Proof.Machine
end

