-- ==== Sys2Proof/Laws/Display.lean ====
section
/-!
SUPPORT. What a sprite draw does (44_display.md R172): it toggles the pixels of a list without repeats, so a pixel ends
flipped exactly when it is in the list, and the draw collides exactly when one of them was lit.
-/

namespace Sys2Proof.Machine

/-- The pixels under the set bits of one sprite row, in drawing order. -/
def rowPixels (vx vy r : Nat) (b : Byte) : List (Fin 64 × Fin 32) :=
  ((List.range 8).filter (spriteBit b)).map fun col => (spriteColumn vx col, spriteRow vy r)

/-- The pixels under the set bits of the sprite rows from row `r` on, in drawing order. -/
def spritePixels (vx vy : Nat) : Nat → List Byte → List (Fin 64 × Fin 32)
  | _, [] => []
  | r, b :: bs => rowPixels vx vy r b ++ spritePixels vx vy (r + 1) bs

/-- Toggle the pixels of a list in order. -/
def togglePixels (l : List (Fin 64 × Fin 32)) (d : DrawState) : DrawState :=
  l.foldl (fun d p => togglePixel d p.1 p.2) d

theorem drawRow_eq (vx vy r : Nat) (b : Byte) (d : DrawState) :
    drawRow vx vy r b d = togglePixels (rowPixels vx vy r b) d := by
  have key : ∀ (l : List Nat) (d : DrawState),
      l.foldl (fun d col => if spriteBit b col then togglePixel d (spriteColumn vx col) (spriteRow vy r) else d) d =
      togglePixels ((l.filter (spriteBit b)).map fun col => (spriteColumn vx col, spriteRow vy r)) d := by
    intro l
    induction l with
    | nil => intro d; rfl
    | cons c l ih =>
      intro d
      rw [List.foldl_cons, ih]
      by_cases hc : spriteBit b c = true
      · simp [hc, togglePixels]
      · simp [hc]
  exact key _ d

theorem drawRows_eq (vx vy : Nat) (bs : List Byte) : ∀ (r : Nat) (d : DrawState),
    drawRows vx vy r bs d = togglePixels (spritePixels vx vy r bs) d := by
  induction bs with
  | nil => intro r d; rfl
  | cons b bs ih =>
    intro r d
    simp only [drawRows, ih, drawRow_eq, spritePixels, togglePixels, List.foldl_append]

/-- Toggling the pixels of a list without repeats flips exactly them and collides exactly when one was lit. -/
theorem togglePixels_spec (l : List (Fin 64 × Fin 32)) (hl : l.Nodup) : ∀ d : DrawState,
    (∀ px py, gridGet (togglePixels l d).1 px py = (gridGet d.1 px py ^^ decide ((px, py) ∈ l))) ∧
    (togglePixels l d).2 = (d.2 || l.any fun p => gridGet d.1 p.1 p.2) := by
  induction l with
  | nil => intro d; simp [togglePixels]
  | cons q l ih =>
    intro d
    have hq := List.nodup_cons.1 hl
    have e : togglePixels (q :: l) d = togglePixels l (togglePixel d q.1 q.2) := rfl
    obtain ⟨h1, h2⟩ := ih hq.2 (togglePixel d q.1 q.2)
    rw [e]
    constructor
    · intro px py
      rw [h1]
      simp only [togglePixel, gridGet_gridSet, List.mem_cons]
      by_cases hp : (px, py) = q
      · subst hp
        simp [hq.1]
      · have hp' : ¬ (px = q.1 ∧ py = q.2) := fun h => hp (Prod.ext h.1 h.2)
        simp [hp, hp']
    · rw [h2]
      have : (l.any fun p => gridGet (togglePixel d q.1 q.2).1 p.1 p.2) = l.any fun p => gridGet d.1 p.1 p.2 := by
        have : ∀ p ∈ l, gridGet (togglePixel d q.1 q.2).1 p.1 p.2 = gridGet d.1 p.1 p.2 := by
          intro p hp
          simp only [togglePixel, gridGet_gridSet]
          rw [if_neg]
          rintro ⟨h3, h4⟩
          exact hq.1 ((Prod.ext h3 h4 : p = q) ▸ hp)
        rw [Bool.eq_iff_iff, List.any_eq_true, List.any_eq_true]
        constructor <;> rintro ⟨p, hp, h⟩
        · exact ⟨p, hp, by rwa [this p hp] at h⟩
        · exact ⟨p, hp, by rwa [this p hp]⟩
      rw [this]
      simp [togglePixel, Bool.or_assoc]

/-- A pixel is under the sprite exactly when a set bit of some row falls on it. -/
theorem mem_spritePixels (vx vy : Nat) (bs : List Byte) : ∀ (r : Nat) (px : Fin 64) (py : Fin 32),
    (px, py) ∈ spritePixels vx vy r bs ↔
      ∃ k col b, bs[k]? = some b ∧ col < 8 ∧ spriteBit b col = true ∧
        (vx + col) % 64 = px.val ∧ (vy + (r + k)) % 32 = py.val := by
  induction bs with
  | nil => intro r px py; simp [spritePixels]
  | cons b bs ih =>
    intro r px py
    rw [spritePixels, List.mem_append, ih]
    constructor
    · rintro (h | ⟨k, col, b', hb, hc, hs, hx, hy⟩)
      · simp only [rowPixels, List.mem_map, List.mem_filter, List.mem_range, Prod.mk.injEq] at h
        obtain ⟨col, ⟨hc, hs⟩, hx, hy⟩ := h
        exact ⟨0, col, b, rfl, hc, hs, congrArg Fin.val hx, congrArg Fin.val hy⟩
      · exact ⟨k + 1, col, b', by simpa using hb, hc, hs, hx, by rw [← hy]; congr 2; omega⟩
    · rintro ⟨k, col, b', hb, hc, hs, hx, hy⟩
      cases k with
      | zero =>
        simp only [List.getElem?_cons_zero, Option.some.injEq] at hb
        subst hb
        refine .inl ?_
        simp only [rowPixels, List.mem_map, List.mem_filter, List.mem_range, Prod.mk.injEq]
        exact ⟨col, ⟨hc, hs⟩, Fin.ext hx, Fin.ext hy⟩
      | succ k =>
        refine .inr ⟨k, col, b', by simpa using hb, hc, hs, hx, ?_⟩
        rw [← hy]; congr 2; omega

/-- No pixel is under two bits of a sprite of at most 32 rows: the sprite is smaller than the screen
(44_display.md R172). -/
theorem nodup_spritePixels (vx vy : Nat) (bs : List Byte) : ∀ r : Nat, bs.length ≤ 32 →
    (spritePixels vx vy r bs).Nodup := by
  induction bs with
  | nil => intro r _; exact List.nodup_nil
  | cons b bs ih =>
    intro r hl
    simp only [List.length_cons] at hl
    refine List.nodup_append.2 ⟨?_, ih (r + 1) (by omega), ?_⟩
    · refine List.Nodup.map_on ?_ ((List.nodup_range).filter _)
      intro c hc c' hc' h
      have hx := congrArg Fin.val (Prod.mk.injEq _ _ _ _ ▸ h : _ ∧ _).1
      simp only [List.mem_filter, List.mem_range] at hc hc'
      simp only [spriteColumn] at hx
      omega
    · rintro p hp q hq rfl
      obtain ⟨px, py⟩ := p
      obtain ⟨k, col, b', hb, -, -, -, hy⟩ := (mem_spritePixels vx vy bs (r + 1) px py).1 hq
      simp only [rowPixels, List.mem_map, Prod.mk.injEq] at hp
      obtain ⟨col', -, -, hy'⟩ := hp
      have hk : k < bs.length := by
        by_contra h
        rw [List.getElem?_eq_none (by omega)] at hb
        cases hb
      have := congrArg Fin.val hy'
      simp only [spriteRow] at this
      omega

/-- What drawing at most 32 sprite rows leaves in FB and in VF (44_display.md R172, R174). -/
theorem State.drawSprite_spec (s : State) (vx vy : Byte) (rows : List Byte) (hl : rows.length ≤ 32) :
    (∀ px py, (s.drawSprite vx vy rows).pixel px py =
      (s.pixel px py ^^ decide ((px, py) ∈ spritePixels vx.toNat vy.toNat 0 rows))) ∧
    (s.drawSprite vx vy rows).readV vf =
      flagByte ((spritePixels vx.toNat vy.toNat 0 rows).any fun p => s.pixel p.1 p.2) := by
  obtain ⟨h1, h2⟩ := togglePixels_spec _ (nodup_spritePixels vx.toNat vy.toNat rows 0 hl) (s.fb, false)
  constructor
  · intro px py
    simp only [State.pixel, State.drawSprite, State.setFb_fb, drawRows_eq, h1]
  · simp only [State.drawSprite, State.readV_setFb, State.readV_writeV, if_true, drawRows_eq, h2, Bool.false_or,
      State.pixel]

end Sys2Proof.Machine
end

