-- ==== Sys2Proof/Laws/Memory.lean ====
section
/-!
SUPPORT. The laws of memory: what reads after a write, and that every memory operation keeps the canonical form.
-/

namespace Sys2Proof.Machine

/-! ### Reading -/

theorem Memory.read_insert (m : Memory) (a : Nat) (b : Byte) (hm : m.Pairwise fun c d => c.1 < d.1) (a' : Nat) :
    Memory.read (Memory.insert m a b) a' = if a' = a then b else Memory.read m a' := by
  induction m with
  | nil => simp [Memory.insert, Memory.read, eq_comm]
  | cons c m ih =>
    have ih := ih hm.of_cons
    simp only [Memory.insert]
    split
    · simp [Memory.read, eq_comm]
    · split
      · rename_i h1 h2
        subst h2
        simp only [Memory.read, eq_comm]
        split <;> simp_all
      · rename_i h1 h2
        simp only [Memory.read, ih]
        by_cases hc : c.1 = a'
        · subst hc
          simp [Ne.symm h2]
        · simp [hc]

theorem Memory.read_eq_resetByte (m : Memory) (a : Nat) (h : ∀ c ∈ m, c.1 ≠ a) : Memory.read m a = resetByte a := by
  induction m with
  | nil => rfl
  | cons c m ih =>
    simp only [Memory.read]
    rw [if_neg (h c (by simp)), ih fun d hd => h d (by simp [hd])]

theorem Memory.read_erase (m : Memory) (a a' : Nat) :
    Memory.read (Memory.erase m a) a' = if a' = a then resetByte a else Memory.read m a' := by
  induction m with
  | nil =>
    by_cases h : a' = a
    · subst h; simp [Memory.erase, Memory.read]
    · simp [Memory.erase, Memory.read, h]
  | cons c m ih =>
    unfold Memory.erase at ih ⊢
    by_cases hc : c.1 = a
    · simp only [List.filter_cons, hc, ne_eq, not_true_eq_false, decide_false, Bool.false_eq_true, if_false, ih,
        Memory.read]
      by_cases h : a' = a
      · simp [h]
      · simp [h, Ne.symm h]
    · simp only [List.filter_cons, hc, ne_eq, not_false_eq_true, decide_true, if_true, Memory.read, ih]
      by_cases h : c.1 = a'
      · simp [h, h ▸ hc]
      · simp [h]

/-- A read after a write: the byte written at its address, the old byte everywhere else. -/
theorem Memory.read_write (m : Memory) (hm : Memory.wf m) (a : Nat) (b : Byte) (a' : Nat) :
    Memory.read (Memory.write m a b) a' = if a' = a ∧ a < 4096 then b else Memory.read m a' := by
  unfold Memory.write
  split
  · rename_i ha
    split
    · rename_i hb
      rw [Memory.read_erase, hb]
      simp [ha]
    · rw [Memory.read_insert m a b hm.1]
      simp [ha]
  · rename_i ha
    simp [ha]

/-! ### The canonical form -/

theorem Memory.mem_insert (m : Memory) (a : Nat) (b : Byte) (c : Host.Cell) (h : c ∈ Memory.insert m a b) :
    c = (a, b) ∨ c ∈ m := by
  induction m with
  | nil => simpa [Memory.insert] using h
  | cons d m ih =>
    simp only [Memory.insert] at h
    split at h
    · simpa using h
    · split at h
      · rcases List.mem_cons.1 h with h | h
        · exact .inl h
        · exact .inr (by simp [h])
      · rcases List.mem_cons.1 h with h | h
        · exact .inr (by simp [h])
        · rcases ih h with h | h
          · exact .inl h
          · exact .inr (by simp [h])

theorem Memory.sorted_insert (m : Memory) (a : Nat) (b : Byte) (hm : m.Pairwise fun c d => c.1 < d.1) :
    (Memory.insert m a b).Pairwise fun c d => c.1 < d.1 := by
  induction m with
  | nil => simp [Memory.insert]
  | cons c m ih =>
    have hc := List.pairwise_cons.1 hm
    simp only [Memory.insert]
    split
    · rename_i h
      refine List.pairwise_cons.2 ⟨fun d hd => ?_, hm⟩
      rcases List.mem_cons.1 hd with rfl | hd
      · exact h
      · exact lt_trans h (hc.1 d hd)
    · split
      · rename_i h1 h2
        exact List.pairwise_cons.2 ⟨fun d hd => h2 ▸ hc.1 d hd, hc.2⟩
      · rename_i h1 h2
        refine List.pairwise_cons.2 ⟨fun d hd => ?_, ih hc.2⟩
        rcases Memory.mem_insert m a b d hd with rfl | hd
        · simp only; omega
        · exact hc.1 d hd

/-- The empty list is canonical: memory as reset leaves it. -/
theorem Memory.wf_nil : Memory.wf [] := by simp [Memory.wf]

/-- A write keeps the canonical form. -/
theorem Memory.wf_write (m : Memory) (hm : Memory.wf m) (a : Nat) (b : Byte) : Memory.wf (Memory.write m a b) := by
  unfold Memory.write
  split
  · rename_i ha
    split
    · exact ⟨hm.1.filter _, fun c hc => hm.2 c (List.mem_filter.1 hc).1⟩
    · rename_i hb
      refine ⟨Memory.sorted_insert m a b hm.1, fun c hc => ?_⟩
      rcases Memory.mem_insert m a b c hc with rfl | hc
      · exact ⟨ha, hb⟩
      · exact hm.2 c hc
  · exact hm

/-- A write of several bytes keeps the canonical form. -/
theorem Memory.wf_writeBytes (bs : List Byte) : ∀ (m : Memory) (a : Nat), Memory.wf m →
    Memory.wf (Memory.writeBytes m a bs) := by
  induction bs with
  | nil => intro m a hm; exact hm
  | cons b bs ih => intro m a hm; exact ih _ _ (Memory.wf_write m hm a b)

/-! ### Several bytes -/

/-- A read after a write of several bytes that stay below 0x1000. -/
theorem Memory.read_writeBytes (bs : List Byte) : ∀ (m : Memory) (a : Nat), Memory.wf m → a + bs.length ≤ 4096 →
    ∀ a', Memory.read (Memory.writeBytes m a bs) a' =
      if a ≤ a' then (bs[a' - a]?).getD (Memory.read m a') else Memory.read m a' := by
  induction bs with
  | nil => intro m a _ _ a'; simp [Memory.writeBytes]
  | cons b bs ih =>
    intro m a hm hl a'
    simp only [List.length_cons] at hl
    simp only [Memory.writeBytes]
    rw [ih _ _ (Memory.wf_write m hm a b) (by omega) a', Memory.read_write m hm]
    rcases Nat.lt_trichotomy a' a with h | h | h
    · simp [Nat.not_le.2 h, Nat.ne_of_lt h, show ¬ a + 1 ≤ a' by omega]
    · subst h
      simp [show a' < 4096 by omega]
    · have e : a' - a = (a' - (a + 1)) + 1 := by omega
      simp only [e, show a + 1 ≤ a' by omega, show a ≤ a' by omega, if_true, List.getElem?_cons_succ,
        show ¬ (a' = a ∧ a < 4096) by omega, if_false]

@[simp] theorem Memory.length_readBytes (m : Memory) (a n : Nat) : (Memory.readBytes m a n).length = n := by
  simp [Memory.readBytes]

/-- Byte `k` of a read of several bytes. -/
@[simp] theorem Memory.getElem?_readBytes (m : Memory) (a n k : Nat) :
    (Memory.readBytes m a n)[k]? = if k < n then some (Memory.read m (a + k)) else none := by
  unfold Memory.readBytes
  split <;> simp_all

@[simp] theorem Memory.getElem_readBytes (m : Memory) (a n k : Nat) (h : k < (Memory.readBytes m a n).length) :
    (Memory.readBytes m a n)[k] = Memory.read m (a + k) := by
  simp [Memory.readBytes]

/-- Two canonical memories that read the same everywhere are the same data. -/
theorem Memory.ext_read : ∀ (m m' : Memory), Memory.wf m → Memory.wf m' →
    (∀ a, Memory.read m a = Memory.read m' a) → m = m' := by
  have key : ∀ (c : Host.Cell) (m m' : Memory), Memory.wf (c :: m) → Memory.wf m' →
      (∀ a, Memory.read (c :: m) a = Memory.read m' a) → ∃ d ∈ m', d.1 = c.1 := by
    intro c m m' h h' hr
    by_contra hn
    have h1 : Memory.read m' c.1 = resetByte c.1 :=
      Memory.read_eq_resetByte m' c.1 fun d hd he => hn ⟨d, hd, he⟩
    have h2 : Memory.read (c :: m) c.1 = c.2 := by simp [Memory.read]
    exact (h.2 c (by simp)).2 (by rw [← h2, hr, h1])
  intro m
  induction m with
  | nil =>
    intro m' h h' hr
    cases m' with
    | nil => rfl
    | cons d m' =>
      obtain ⟨e, he, -⟩ := key d m' [] h' h fun a => (hr a).symm
      simp at he
  | cons c m ih =>
    intro m' h h' hr
    cases m' with
    | nil =>
      obtain ⟨e, he, -⟩ := key c m [] h h' hr
      simp at he
    | cons d m' =>
      have hs := List.pairwise_cons.1 h.1
      have hs' := List.pairwise_cons.1 h'.1
      have hcd : c.1 = d.1 := by
        obtain ⟨e, he, hec⟩ := key c m (d :: m') h h' hr
        obtain ⟨f, hf, hfd⟩ := key d m' (c :: m) h' h fun a => (hr a).symm
        rcases List.mem_cons.1 he with rfl | he
        · exact hec.symm
        · rcases List.mem_cons.1 hf with rfl | hf
          · exact hfd
          · have := hs'.1 e he
            have := hs.1 f hf
            omega
      have hb : c.2 = d.2 := by
        have := hr c.1
        simpa [Memory.read, hcd] using this
      have hcd' : c = d := Prod.ext hcd hb
      subst hcd'
      congr 1
      refine ih m' ⟨hs.2, fun e he => h.2 e (by simp [he])⟩ ⟨hs'.2, fun e he => h'.2 e (by simp [he])⟩ fun a => ?_
      by_cases ha : c.1 = a
      · subst ha
        rw [Memory.read_eq_resetByte m c.1 fun e he => (hs.1 e he).ne',
          Memory.read_eq_resetByte m' c.1 fun e he => (hs'.1 e he).ne']
      · simpa [Memory.read, ha] using hr a

/-- Reset is construction with the default parameters (70_reset_and_hazards.md R270). -/
theorem reset_eq_construct : State.reset = State.construct Config.default :=
  congrArg (State.fresh Config.default) (show ([] : Memory) = Memory.writeBytes [] 0 Config.default.font.toList by
    decide +kernel)

/-- After reset memory lists nothing, so every byte reads as its reset contents. -/
@[simp] theorem reset_mem : State.reset.mem = [] := rfl

end Sys2Proof.Machine
end

