-- ==== Sys2Proof/Laws/Ops.lean ====
section
/-!
SUPPORT. One lemma for each shared operation that says everything it can do: an access in range or its fault, push
and pop, committing, fetching, and the stages before execute. Proofs cite these instead of unfolding the operation.
-/

namespace Sys2Proof.Machine

/-! ### Memory accesses -/

/-- MemRead answers the bytes in range, or DataOutOfRange (20_memory.md R55). -/
theorem State.memRead_cases (s : State) (addr : Word) (n : Nat) :
    ((n = 0 ∨ addr.toNat + n ≤ 4096) ∧ s.memRead addr n = .ok (Memory.readBytes s.mem addr.toNat n)) ∨
    (0 < n ∧ 4096 < addr.toNat + n ∧ s.memRead addr n = .error (.dataOutOfRange, .addr addr)) := by
  unfold State.memRead
  split
  · exact .inl ⟨by omega, rfl⟩
  · exact .inr ⟨by omega, by omega, rfl⟩

theorem State.memRead_ok {s : State} {addr : Word} {n : Nat} (h : addr.toNat + n ≤ 4096) :
    s.memRead addr n = .ok (Memory.readBytes s.mem addr.toNat n) := by
  unfold State.memRead
  rw [if_pos (by omega)]

theorem State.memRead_error {s : State} {addr : Word} {n : Nat} (h0 : 0 < n) (h : 4096 < addr.toNat + n) :
    s.memRead addr n = .error (.dataOutOfRange, .addr addr) := by
  unfold State.memRead
  rw [if_neg (by omega)]

/-- A non-empty MemWrite writes the bytes, or raises DataOutOfRange, or ReservedWrite, in that order
(20_memory.md R56). -/
theorem State.memWrite_cases (s : State) (addr : Word) (bs : List Byte) (hb : 0 < bs.length) :
    (addr.toNat + bs.length ≤ 4096 ∧ ¬ (s.cfg.reservedWrite = .fault ∧ addr.toNat ≤ 0x1FF) ∧
      s.memWrite addr bs = .ok { s with mem := Memory.writeBytes s.mem addr.toNat bs }) ∨
    (4096 < addr.toNat + bs.length ∧ s.memWrite addr bs = .error (.dataOutOfRange, .addr addr)) ∨
    (addr.toNat + bs.length ≤ 4096 ∧ s.cfg.reservedWrite = .fault ∧ addr.toNat ≤ 0x1FF ∧
      s.memWrite addr bs = .error (.reservedWrite, .addr addr)) := by
  unfold State.memWrite
  rw [if_neg (by omega)]
  split
  · exact .inr (.inl ⟨by omega, rfl⟩)
  · split
    · rename_i h
      exact .inr (.inr ⟨by omega, h.1, h.2, rfl⟩)
    · rename_i h
      exact .inl ⟨by omega, h, rfl⟩

theorem State.memWrite_ok {s : State} {addr : Word} {bs : List Byte} (hb : 0 < bs.length)
    (h : addr.toNat + bs.length ≤ 4096) (hr : s.cfg.reservedWrite = .fault → 0x1FF < addr.toNat) :
    s.memWrite addr bs = .ok { s with mem := Memory.writeBytes s.mem addr.toNat bs } := by
  unfold State.memWrite
  rw [if_neg (by omega), if_neg (by omega), if_neg (by intro h'; have := hr h'.1; omega)]

@[simp] theorem length_bcdDigits (b : Byte) : (bcdDigits b).length = 3 := by simp [bcdDigits]

@[simp] theorem State.length_registersUpTo (s : State) (x : Reg) : (s.registersUpTo x).length = x.val + 1 := by
  have := x.isLt
  simp only [State.registersUpTo, List.length_map, List.length_take, List.length_finRange]
  omega

/-- Byte `k` of a register dump is Vk (43_index_memory.md R154). -/
theorem State.getElem?_registersUpTo (s : State) (x k : Reg) :
    (s.registersUpTo x)[k.val]? = if k ≤ x then some (s.readV k) else none := by
  have hk := k.isLt
  unfold State.registersUpTo
  rw [List.getElem?_map, List.getElem?_take]
  by_cases h : k ≤ x
  · rw [if_pos (Nat.lt_succ_of_le h), if_pos h, List.getElem?_eq_getElem (by simp)]
    simp
  · rw [if_neg (fun h' => h (Nat.le_of_lt_succ h')), if_neg h]
    rfl

/-! ### The stack -/

/-- Push appends, or raises StackOverflow at STACK_LIMIT (10_state.md R32). -/
theorem State.push_cases (s : State) (a : Word) :
    (s.cfg.stackLimit ≠ some s.stack.length ∧ s.push a = .ok { s with stack := s.stack ++ [a] }) ∨
    (s.cfg.stackLimit = some s.stack.length ∧ s.push a = .error (.stackOverflow, .none)) := by
  unfold State.push
  split
  · exact .inr ⟨‹_›, rfl⟩
  · exact .inl ⟨‹_›, rfl⟩

/-- Pop gives the top entry and the rest, or raises StackUnderflow (10_state.md R33). -/
theorem State.pop_cases (s : State) :
    (s.stack = [] ∧ s.pop = .error (.stackUnderflow, .none)) ∨
    ∃ r rest, s.stack = rest ++ [r] ∧ s.pop = .ok (r, { s with stack := rest }) := by
  unfold State.pop
  rcases List.eq_nil_or_concat' s.stack with h | ⟨rest, r, h⟩
  · exact .inl ⟨h, by simp [h]⟩
  · exact .inr ⟨r, rest, h, by simp [h]⟩

/-! ### The key operand -/

/-- A key skip's register names a key, or raises KeyIndexOutOfRange (60_exceptions.md R226). -/
theorem keyOperand_cases (b : Byte) :
    (∃ h : b.toNat < 16, keyOperand b = .ok ⟨b.toNat, h⟩) ∨
    (15 < b.toNat ∧ keyOperand b = .error (.keyIndexOutOfRange, .key b)) := by
  unfold keyOperand
  split
  · exact .inl ⟨‹_›, rfl⟩
  · exact .inr ⟨by omega, rfl⟩

/-- The lowest pressed key: pressed, and no lower key is; or no key is pressed (45_timers_keypad.md R203). -/
theorem State.lowestKey_cases (s : State) :
    (∃ k, s.lowestKey = some k ∧ s.keyPressed k = true ∧ ∀ j, j < k → s.keyPressed j = false) ∨
    (s.lowestKey = none ∧ ∀ k, s.keyPressed k = false) := by
  rcases h : s.lowestKey with _ | k
  · refine .inr ⟨rfl, fun k => ?_⟩
    have := List.find?_eq_none.1 h k (by simp)
    simpa using this
  · refine .inl ⟨k, rfl, List.find?_some h, fun j hj => ?_⟩
    unfold State.lowestKey at h
    obtain ⟨-, as, bs, hl, hn⟩ := List.find?_eq_some_iff_append.1 h
    have hlen : as.length = k.val := by
      have h1 : (List.finRange 16)[as.length]? = some k := by simp [hl]
      rw [List.getElem?_eq_some_iff] at h1
      obtain ⟨hl', h1⟩ := h1
      simpa using congrArg Fin.val h1
    have hj' : j ∈ as := by
      have h1 : (List.finRange 16)[j.val]? = some j := by simp
      rw [hl, List.getElem?_append_left (by rw [hlen]; exact hj)] at h1
      exact List.mem_of_getElem? h1
    simpa using hn j hj'

/-! ### Committing -/

@[simp] theorem State.commit_ok (i : Instr) (s t : State) : State.commit i s (.ok t) = .next t := rfl

@[simp] theorem State.commit_error (i : Instr) (s : State) (c : Cause) :
    State.commit i s (.error c) = .next (s.takeFault (s.pc - 2) (some (encode i)) c) := rfl

/-- Committing always answers a next state: the instruction's own, or the fault taken from `s`
(60_exceptions.md R230). -/
theorem State.commit_cases (i : Instr) (s : State) (r : Except Cause State) :
    (∃ t, r = .ok t ∧ State.commit i s r = .next t) ∨
    (∃ c, r = .error c ∧ State.commit i s r = .next (s.takeFault (s.pc - 2) (some (encode i)) c)) := by
  cases r with
  | ok t => exact .inl ⟨t, rfl, rfl⟩
  | error c => exact .inr ⟨c, rfl, rfl⟩

/-! ### Fetch and the step -/

theorem State.fetch_eq_none {s : State} : s.fetch = none ↔ 0xFFE < s.pc.toNat := by
  unfold State.fetch
  split <;> simp <;> omega

theorem State.fetch_eq_some {s : State} (h : s.pc.toNat ≤ 0xFFE) :
    s.fetch = some (wordOfBytes (Memory.read s.mem s.pc.toNat) (Memory.read s.mem (s.pc.toNat + 1))) := by
  unfold State.fetch
  rw [if_pos h]

/-- What can happen before execute: nothing on a halted machine, a fetch fault, a decode fault, or an instruction to
execute with the provisional PC (30_encoding.md R93 to R96). -/
theorem State.front_cases (s : State) :
    (s.halted = true ∧ s.front = .error s) ∨
    (s.halted = false ∧ 0xFFE < s.pc.toNat ∧
      s.front = .error (s.takeFault s.pc none (.fetchOutOfRange, .addr s.pc))) ∨
    (∃ w, s.halted = false ∧ s.pc.toNat ≤ 0xFFE ∧ s.fetch = some w ∧ decode w = none ∧
      s.front = .error (s.takeFault s.pc (some w) (.illegalInstruction, .word w))) ∨
    (∃ w i, s.halted = false ∧ s.pc.toNat ≤ 0xFFE ∧ s.fetch = some w ∧ decode w = some i ∧
      s.front = .ok (i, s.provisional)) := by
  unfold State.front
  rcases hh : s.halted with _ | _
  · rcases hf : s.fetch with _ | w
    · exact .inr (.inl ⟨rfl, State.fetch_eq_none.1 hf, by simp⟩)
    · have hp : s.pc.toNat ≤ 0xFFE := by
        by_contra h
        rw [State.fetch_eq_none.2 (by omega)] at hf
        cases hf
      rcases hd : decode w with _ | i
      · exact .inr (.inr (.inl ⟨w, rfl, hp, rfl, hd, by simp [hd]⟩))
      · exact .inr (.inr (.inr ⟨w, i, rfl, hp, rfl, hd, by simp [hd]⟩))
  · exact .inl ⟨rfl, by simp⟩

end Sys2Proof.Machine
end

