-- ==== Sys2Proof/Laws/Frames.lean ====
section
/-!
SUPPORT. Frames of the shared operations: which parts of the state each of them changes. Proofs about an instruction
cite the frame of the operation its meaning ends in.
-/

namespace Sys2Proof.Machine

/-- A frame may be weakened to more written parts. -/
theorem ChangesOnly.mono {P Q : Part → Prop} {s t : State} (h : ChangesOnly P s t) (hPQ : ∀ p, P p → Q p) :
    ChangesOnly Q s t := fun p hp => h p fun hP => hp (hPQ p hP)

/-- Nothing changes from a state to itself. -/
theorem ChangesOnly.refl {P : Part → Prop} (s : State) : ChangesOnly P s s := by
  intro p _
  cases p <;> rfl

theorem changesOnly_writeV (s : State) (x : Reg) (b : Byte) : ChangesOnly (fun p => p = .v x) s (s.writeV x b) := by
  intro p hp
  cases p <;> first | rfl | skip
  rename_i y
  simp only [Part.v.injEq] at hp
  simp [Part.Same, hp]

theorem changesOnly_writeFlagThenValue (s : State) (x : Reg) (flag value : Byte) :
    ChangesOnly (fun p => p = .v x ∨ p = .v vf) s (s.writeFlagThenValue x flag value) := by
  intro p hp
  cases p <;> first | rfl | skip
  rename_i y
  simp only [Part.v.injEq, not_or] at hp
  simp [Part.Same, State.writeFlagThenValue, hp]

theorem changesOnly_setPc (s : State) (a : Word) : ChangesOnly (fun p => p = .pc) s (s.setPc a) := by
  intro p hp
  cases p <;> first | rfl | exact absurd rfl hp

theorem changesOnly_skipIf (s : State) (taken : Bool) : ChangesOnly (fun p => p = .pc) s (s.skipIf taken) := by
  unfold State.skipIf
  split
  · exact changesOnly_setPc s _
  · exact ChangesOnly.refl s

theorem changesOnly_setI (s : State) (a : Word) : ChangesOnly (fun p => p = .i) s (s.setI a) := by
  intro p hp
  cases p <;> first | rfl | exact absurd rfl hp

theorem changesOnly_setDt (s : State) (b : Byte) : ChangesOnly (fun p => p = .dt) s (s.setDt b) := by
  intro p hp
  cases p <;> first | rfl | exact absurd rfl hp

theorem changesOnly_setSt (s : State) (b : Byte) : ChangesOnly (fun p => p = .st) s (s.setSt b) := by
  intro p hp
  cases p <;> first | rfl | exact absurd rfl hp

theorem changesOnly_setFb (s : State) (g : Grid Bool) : ChangesOnly anyPixel s (s.setFb g) := by
  intro p hp
  cases p <;> first | rfl | exact absurd ⟨_, _, rfl⟩ hp

/-- A canonical memory with `n` bytes written at `a` reads as before everywhere else. -/
theorem changesOnly_writeBytes (s : State) (hm : Memory.wf s.mem) (a : Nat) (bs : List Byte)
    (hl : a + bs.length ≤ 4096) :
    ChangesOnly (memoryRange a bs.length) s { s with mem := Memory.writeBytes s.mem a bs } := by
  intro p hp
  cases p <;> first | rfl | skip
  rename_i b
  simp only [Part.Same]
  rw [Memory.read_writeBytes bs s.mem a hm hl]
  split
  · rw [List.getElem?_eq_none]
    · rfl
    · by_contra h
      exact hp ⟨b - a, by omega, by congr; omega⟩
  · rfl

/-- A register load changes the registers the bytes reach. -/
theorem changesOnly_writeFirst (s : State) (bs : List Byte) :
    ChangesOnly (fun p => ∃ k : Reg, k.val < bs.length ∧ p = .v k) s (s.writeFirst bs) := by
  intro p hp
  cases p <;> first | rfl | skip
  rename_i k
  have hk : bs.length ≤ k.val := by
    by_contra h
    exact hp ⟨k, by omega, rfl⟩
  simp [Part.Same, List.getElem?_eq_none hk]

/-- Taking a fault is the fault entry of 60_exceptions.md R230. -/
theorem takeFault_faultTaken (s : State) (a : Word) (w : Option Word) (c : Cause) :
    FaultTaken s (s.takeFault a w c) a w c.1 c.2 := by
  refine ⟨rfl, rfl, rfl, ?_⟩
  intro p hp
  cases p <;> first | rfl | (exfalso; apply hp; simp)

end Sys2Proof.Machine
end

