-- ==== Sys2Proof/Laws/PerInstr.lean ====
section
/-!
SUPPORT. Statements about every instruction as syntax, one lemma per constructor.

Family `InRow`: the instruction's word is selected by the row of the opcode table that stands for the instruction
(30_encoding.md R85). The row is taken from the list of WellFormed.lean by its number.
-/

namespace Sys2Proof.Laws.InRow

/-- The number of an instruction's row in the opcode table, counted from 0. -/
def rowNumber : Instr → Nat
  | .cls => 0 | .ret => 1 | .jp _ => 2 | .call _ => 3 | .seImm _ _ => 4 | .sneImm _ _ => 5 | .seReg _ _ => 6
  | .ldImm _ _ => 7 | .addImm _ _ => 8 | .ldReg _ _ => 9 | .orReg _ _ => 10 | .andReg _ _ => 11
  | .xorReg _ _ => 12 | .addReg _ _ => 13 | .sub _ _ => 14 | .shr _ _ => 15 | .subn _ _ => 16 | .shl _ _ => 17
  | .sneReg _ _ => 18 | .ldI _ => 19 | .jpV0 _ => 20 | .rnd _ _ => 21 | .drw _ _ _ => 22 | .skp _ => 23
  | .sknp _ => 24 | .ldVxDt _ => 25 | .ldVxK _ => 26 | .ldDt _ => 27 | .ldSt _ => 28 | .addI _ => 29
  | .ldF _ => 30 | .ldB _ => 31 | .ldMemV _ => 32 | .ldVMem _ => 33

/-- The instruction's row selects its word. -/
def Statement (i : Instr) : Prop := (opcodeRows[rowNumber i]?).map (fun r => r.selects (encode i)) = some true

/-! ### Masking a packed word -/

theorem mask_packNNN (f : BitVec 4) (nnn : BitVec 12) : packNNN f nnn &&& 0xF000 = packNNN f 0 := by
  apply BitVec.eq_of_getLsbD_eq
  intro i hi
  have h : (0xF000 : Word).getLsbD i = decide (12 ≤ i) := by revert i; decide
  rw [BitVec.getLsbD_and, h]
  simp only [packNNN, BitVec.getLsbD_append]
  by_cases h12 : i < 12
  · simp [h12]
  · simp [h12, show 12 ≤ i by omega]

theorem mask_packXNN_family (f : BitVec 4) (x : Reg) (nn : Byte) : packXNN f x nn &&& 0xF000 = packXNN f 0 0 := by
  apply BitVec.eq_of_getLsbD_eq
  intro i hi
  have h : (0xF000 : Word).getLsbD i = decide (12 ≤ i) := by revert i; decide
  rw [BitVec.getLsbD_and, h]
  simp only [packXNN, BitVec.getLsbD_append]
  by_cases h12 : i < 12
  · by_cases h8 : i < 8
    · simp [h8, show ¬ 12 ≤ i by omega]
    · simp [h8, show ¬ 12 ≤ i by omega, show i - 8 < 4 by omega, regBits]
  · simp [show 12 ≤ i by omega, show ¬ i < 8 by omega, show ¬ i - 8 < 4 by omega]

theorem mask_packXNN (f : BitVec 4) (x : Reg) (nn : Byte) : packXNN f x nn &&& 0xF0FF = packXNN f 0 nn := by
  apply BitVec.eq_of_getLsbD_eq
  intro i hi
  have h : (0xF0FF : Word).getLsbD i = (decide (i < 8) || decide (12 ≤ i)) := by revert i; decide
  rw [BitVec.getLsbD_and, h]
  simp only [packXNN, BitVec.getLsbD_append]
  by_cases h8 : i < 8
  · simp [h8]
  · by_cases h12 : i < 12
    · simp [h8, show ¬ 12 ≤ i by omega, show i - 8 < 4 by omega, regBits]
    · simp [show 12 ≤ i by omega, show ¬ i < 8 by omega, show ¬ i - 8 < 4 by omega]

theorem mask_packXYN (f : BitVec 4) (x y : Reg) (n : BitVec 4) : packXYN f x y n &&& 0xF00F = packXYN f 0 0 n := by
  apply BitVec.eq_of_getLsbD_eq
  intro i hi
  have h : (0xF00F : Word).getLsbD i = (decide (i < 4) || decide (12 ≤ i)) := by revert i; decide
  rw [BitVec.getLsbD_and, h]
  simp only [packXYN, BitVec.getLsbD_append]
  by_cases h4 : i < 4
  · simp [h4]
  · by_cases h8 : i < 8
    · simp [h4, show ¬ 12 ≤ i by omega, show i - 4 < 4 by omega, regBits]
    · by_cases h12 : i < 12
      · simp [h4, show ¬ 12 ≤ i by omega, show ¬ i - 4 < 4 by omega, show i - 4 - 4 < 4 by omega, regBits]
      · simp [show 12 ≤ i by omega, show ¬ i < 4 by omega, show ¬ i - 4 < 4 by omega, show ¬ i - 4 - 4 < 4 by omega]

theorem mask_packXYN_family (f : BitVec 4) (x y : Reg) (n : BitVec 4) :
    packXYN f x y n &&& 0xF000 = packXYN f 0 0 0 := by
  apply BitVec.eq_of_getLsbD_eq
  intro i hi
  have h : (0xF000 : Word).getLsbD i = decide (12 ≤ i) := by revert i; decide
  rw [BitVec.getLsbD_and, h]
  simp only [packXYN, BitVec.getLsbD_append]
  by_cases h4 : i < 4
  · simp [h4, show ¬ 12 ≤ i by omega]
  · by_cases h8 : i < 8
    · simp [h4, show ¬ 12 ≤ i by omega, show i - 4 < 4 by omega, regBits]
    · by_cases h12 : i < 12
      · simp [h4, show ¬ 12 ≤ i by omega, show ¬ i - 4 < 4 by omega, show i - 4 - 4 < 4 by omega, regBits]
      · simp [show 12 ≤ i by omega, show ¬ i < 4 by omega, show ¬ i - 4 < 4 by omega, show ¬ i - 4 - 4 < 4 by omega]

/-- A row whose masked word is the pattern selects the word. -/
theorem of_masked {i : Instr} {r : OpcodeRow} (hr : opcodeRows[rowNumber i]? = some r) {w : Word}
    (hm : encode i &&& r.mask = w) (hw : w = r.pattern) : Statement i := by
  simp only [Statement, hr, Option.map_some, OpcodeRow.selects, hm, hw, beq_self_eq_true]

/-! ### One lemma per constructor -/

theorem cls : Statement .cls := of_masked rfl rfl rfl
theorem ret : Statement .ret := of_masked rfl rfl rfl
theorem jp (nnn : BitVec 12) : Statement (.jp nnn) := of_masked rfl (mask_packNNN _ _) rfl
theorem call (nnn : BitVec 12) : Statement (.call nnn) := of_masked rfl (mask_packNNN _ _) rfl
theorem seImm (x : Reg) (nn : Byte) : Statement (.seImm x nn) := of_masked rfl (mask_packXNN_family _ _ _) rfl
theorem sneImm (x : Reg) (nn : Byte) : Statement (.sneImm x nn) := of_masked rfl (mask_packXNN_family _ _ _) rfl
theorem seReg (x y : Reg) : Statement (.seReg x y) := of_masked rfl (mask_packXYN _ _ _ _) rfl
theorem ldImm (x : Reg) (nn : Byte) : Statement (.ldImm x nn) := of_masked rfl (mask_packXNN_family _ _ _) rfl
theorem addImm (x : Reg) (nn : Byte) : Statement (.addImm x nn) := of_masked rfl (mask_packXNN_family _ _ _) rfl
theorem ldReg (x y : Reg) : Statement (.ldReg x y) := of_masked rfl (mask_packXYN _ _ _ _) rfl
theorem orReg (x y : Reg) : Statement (.orReg x y) := of_masked rfl (mask_packXYN _ _ _ _) rfl
theorem andReg (x y : Reg) : Statement (.andReg x y) := of_masked rfl (mask_packXYN _ _ _ _) rfl
theorem xorReg (x y : Reg) : Statement (.xorReg x y) := of_masked rfl (mask_packXYN _ _ _ _) rfl
theorem addReg (x y : Reg) : Statement (.addReg x y) := of_masked rfl (mask_packXYN _ _ _ _) rfl
theorem sub (x y : Reg) : Statement (.sub x y) := of_masked rfl (mask_packXYN _ _ _ _) rfl
theorem shr (x y : Reg) : Statement (.shr x y) := of_masked rfl (mask_packXYN _ _ _ _) rfl
theorem subn (x y : Reg) : Statement (.subn x y) := of_masked rfl (mask_packXYN _ _ _ _) rfl
theorem shl (x y : Reg) : Statement (.shl x y) := of_masked rfl (mask_packXYN _ _ _ _) rfl
theorem sneReg (x y : Reg) : Statement (.sneReg x y) := of_masked rfl (mask_packXYN _ _ _ _) rfl
theorem ldI (nnn : BitVec 12) : Statement (.ldI nnn) := of_masked rfl (mask_packNNN _ _) rfl
theorem jpV0 (nnn : BitVec 12) : Statement (.jpV0 nnn) := of_masked rfl (mask_packNNN _ _) rfl
theorem rnd (x : Reg) (nn : Byte) : Statement (.rnd x nn) := of_masked rfl (mask_packXNN_family _ _ _) rfl
theorem drw (x y : Reg) (n : BitVec 4) : Statement (.drw x y n) := of_masked rfl (mask_packXYN_family _ _ _ _) rfl
theorem skp (x : Reg) : Statement (.skp x) := of_masked rfl (mask_packXNN _ _ _) rfl
theorem sknp (x : Reg) : Statement (.sknp x) := of_masked rfl (mask_packXNN _ _ _) rfl
theorem ldVxDt (x : Reg) : Statement (.ldVxDt x) := of_masked rfl (mask_packXNN _ _ _) rfl
theorem ldVxK (x : Reg) : Statement (.ldVxK x) := of_masked rfl (mask_packXNN _ _ _) rfl
theorem ldDt (x : Reg) : Statement (.ldDt x) := of_masked rfl (mask_packXNN _ _ _) rfl
theorem ldSt (x : Reg) : Statement (.ldSt x) := of_masked rfl (mask_packXNN _ _ _) rfl
theorem addI (x : Reg) : Statement (.addI x) := of_masked rfl (mask_packXNN _ _ _) rfl
theorem ldF (x : Reg) : Statement (.ldF x) := of_masked rfl (mask_packXNN _ _ _) rfl
theorem ldB (x : Reg) : Statement (.ldB x) := of_masked rfl (mask_packXNN _ _ _) rfl
theorem ldMemV (x : Reg) : Statement (.ldMemV x) := of_masked rfl (mask_packXNN _ _ _) rfl
theorem ldVMem (x : Reg) : Statement (.ldVMem x) := of_masked rfl (mask_packXNN _ _ _) rfl

end Sys2Proof.Laws.InRow
end

