-- ==== Sys2Proof/Tests/Slice0.lean ====
section
/-!
SUPPORT. Tests of the model: expected results are the vectors of 95_test_vectors.md (their ids stand in the comments)
and words written out bit by bit from the patterns of 30_encoding.md R85.
-/

namespace Sys2Proof.Tests

open Sys2Proof.Machine

/-! ### Well-formedness refuses an ill-formed term for each check (30_encoding.md R88, 00_scope.md R6) -/

theorem test_illegal_family_zero : legalWord 0x0123 = false := by decide
theorem test_illegal_family_five : legalWord 0x5121 = false := by decide
theorem test_illegal_family_eight : legalWord 0x8018 = false := by decide
theorem test_illegal_family_nine : legalWord 0x9121 = false := by decide
theorem test_illegal_family_e : legalWord 0xE09F = false := by decide
theorem test_illegal_family_f : legalWord 0xF0FF = false := by decide
theorem test_illformed_bytes : wellFormedBytes [0x12] = false ∧ wellFormedBytes [0x12, 0x34, 0x56] = false ∧
    wellFormedBytes [0x80, 0x1F] = false := by decide
/-- 1.5 in binary64 is 0x3FF8000000000000: no decay factor. -/
theorem test_illformed_decay : Config.wellFormed { Config.default with decayFactor := 0x3FF8000000000000 } = false := by
  decide
theorem test_wellformed_default : Config.default.wellFormed = true := by decide

/-! ### Every constructor's word, written out from the pattern of 30_encoding.md R85 -/

theorem test_decode_cls : decode 0b0000000011100000#16 = some .cls := by decide
theorem test_decode_ret : decode 0b0000000011101110#16 = some .ret := by decide
theorem test_decode_jp : decode 0b0001001000110100#16 = some (.jp 0x234) := by decide
theorem test_decode_call : decode 0b0010001000010000#16 = some (.call 0x210) := by decide
theorem test_decode_seImm : decode 0b0011001100000101#16 = some (.seImm 3 0x05) := by decide
theorem test_decode_sneImm : decode 0b0100001100000101#16 = some (.sneImm 3 0x05) := by decide
theorem test_decode_seReg : decode 0b0101000100100000#16 = some (.seReg 1 2) := by decide
theorem test_decode_ldImm : decode 0b0110101000101011#16 = some (.ldImm 0xA 0x2B) := by decide
theorem test_decode_addImm : decode 0b0111001000000011#16 = some (.addImm 2 0x03) := by decide
theorem test_decode_ldReg : decode 0b1000000101010000#16 = some (.ldReg 1 5) := by decide
theorem test_decode_orReg : decode 0b1000000000010001#16 = some (.orReg 0 1) := by decide
theorem test_decode_andReg : decode 0b1000000000010010#16 = some (.andReg 0 1) := by decide
theorem test_decode_xorReg : decode 0b1000000000010011#16 = some (.xorReg 0 1) := by decide
theorem test_decode_addReg : decode 0b1000000100100100#16 = some (.addReg 1 2) := by decide
theorem test_decode_sub : decode 0b1000000100100101#16 = some (.sub 1 2) := by decide
theorem test_decode_shr : decode 0b1000010001010110#16 = some (.shr 4 5) := by decide
theorem test_decode_subn : decode 0b1000000000010111#16 = some (.subn 0 1) := by decide
theorem test_decode_shl : decode 0b1000010000001110#16 = some (.shl 4 0) := by decide
theorem test_decode_sneReg : decode 0b1001000100100000#16 = some (.sneReg 1 2) := by decide
theorem test_decode_ldI : decode 0b1010001011110000#16 = some (.ldI 0x2F0) := by decide
theorem test_decode_jpV0 : decode 0b1011001100000000#16 = some (.jpV0 0x300) := by decide
theorem test_decode_rnd : decode 0b1100001100001111#16 = some (.rnd 3 0x0F) := by decide
theorem test_decode_drw : decode 0b1101000000010101#16 = some (.drw 0 1 5) := by decide
theorem test_decode_skp : decode 0b1110000110011110#16 = some (.skp 1) := by decide
theorem test_decode_sknp : decode 0b1110000110100001#16 = some (.sknp 1) := by decide
theorem test_decode_ldVxDt : decode 0b1111010100000111#16 = some (.ldVxDt 5) := by decide
theorem test_decode_ldVxK : decode 0b1111001100001010#16 = some (.ldVxK 3) := by decide
theorem test_decode_ldDt : decode 0b1111000000010101#16 = some (.ldDt 0) := by decide
theorem test_decode_ldSt : decode 0b1111001000011000#16 = some (.ldSt 2) := by decide
theorem test_decode_addI : decode 0b1111001000011110#16 = some (.addI 2) := by decide
theorem test_decode_ldF : decode 0b1111011100101001#16 = some (.ldF 7) := by decide
theorem test_decode_ldB : decode 0b1111000000110011#16 = some (.ldB 0) := by decide
theorem test_decode_ldMemV : decode 0b1111001001010101#16 = some (.ldMemV 2) := by decide
theorem test_decode_ldVMem : decode 0b1111001001100101#16 = some (.ldVMem 2) := by decide
/-- Bytes in memory order, big-endian (20_memory.md R51), and a rejection by name. -/
theorem test_decodeBytes : decodeBytes [0xD0, 0x15, 0x7F] = .ok (.drw 0 1 5, [0x7F]) ∧
    decodeBytes [0x00] = .error .truncated ∧ decodeBytes [0x80, 0x18] = .error (.illegal 0x8018) := by decide

/-! ### One step on a small state -/

/-- The reset state at fetch address `a` with the word `w` there. -/
def at_ (a : Word) (w : Nat) : State := (State.reset.setPc a).withFetchWord 16 w

/-- V after a step. -/
def vAfter (s : State) (x : Reg) : Byte := s.hostStep.readV x

/-- A byte of memory after a step. -/
def memAfter (s : State) (a : Nat) : Byte := Memory.read s.hostStep.mem a

/-- T-C1, T-C3 -/
theorem test_ret : let s := { at_ 0x400 0x00EE with stack := [0x204, 0x302] }
    s.hostStep.pc = 0x302 ∧ s.hostStep.stack = [0x204] := by decide
/-- T-C2 -/
theorem test_ret_underflow : let s := (at_ 0x210 0x00EE).hostStep
    s.pc = 0x210 ∧ s.halted ∧ s.fault = some ⟨.stackUnderflow, 0x210, some 0x00EE, .none⟩ := by decide
/-- T-C5 -/
theorem test_jp : (at_ 0x200 0x1201).hostStep.pc = 0x201 := by decide
/-- T-C6 -/
theorem test_call : let s := (at_ 0x204 0x2210).hostStep
    s.pc = 0x210 ∧ s.stack = [0x206] := by decide
/-- T-C8 with STACK_LIMIT = 2 -/
theorem test_call_overflow :
    let s := { at_ 0x200 0x2300 with stack := [0x204, 0x206], cfg := { Config.default with stackLimit := some 2 } }
    s.hostStep.pc = 0x200 ∧ s.hostStep.stack = [0x204, 0x206] ∧
      s.hostStep.fault = some ⟨.stackOverflow, 0x200, some 0x2300, .none⟩ := by decide
/-- T-C10, T-C11 -/
theorem test_seImm : ((at_ 0x206 0x3305).writeV 3 5).hostStep.pc = 0x20A ∧
    ((at_ 0x206 0x3305).writeV 3 4).hostStep.pc = 0x208 := by decide
/-- T-C12, T-C13 -/
theorem test_sneImm : ((at_ 0x206 0x4305).writeV 3 4).hostStep.pc = 0x20A ∧
    ((at_ 0x206 0x4305).writeV 3 5).hostStep.pc = 0x208 := by decide
/-- T-C14 -/
theorem test_seReg : (((at_ 0x300 0x5120).writeV 1 0x10).writeV 2 0x10).hostStep.pc = 0x304 := by decide
/-- T-C16, T-C17 -/
theorem test_sneReg : (((at_ 0x300 0x9120).writeV 1 0x10).writeV 2 0x11).hostStep.pc = 0x304 ∧
    ((at_ 0x300 0x9110).writeV 1 0x10).hostStep.pc = 0x302 := by decide
/-- T-C19 -/
theorem test_jpV0 : let s := ((at_ 0x200 0xBFFF).writeV 0 0xFF).hostStep
    s.pc = 0x10FE ∧ s.hostStep.pc = 0x10FE ∧
      s.hostStep.fault = some ⟨.fetchOutOfRange, 0x10FE, none, .addr 0x10FE⟩ := by decide
/-- T-A1 -/
theorem test_ldImm : vAfter (at_ 0x200 0x6A2B) 0xA = 0x2B := by decide
/-- T-A2 -/
theorem test_addImm : let s := ((at_ 0x200 0x7203).writeV 2 0xFE).writeV vf 0x55
    vAfter s 2 = 0x01 ∧ vAfter s vf = 0x55 := by decide
/-- T-A4 -/
theorem test_ldReg : vAfter ((at_ 0x200 0x8150).writeV 5 0x77) 1 = 0x77 := by decide
/-- T-A5 -/
theorem test_orReg : let s := (((at_ 0x200 0x8011).writeV 0 0x0F).writeV 1 0xF0).writeV vf 0x07
    vAfter s 0 = 0xFF ∧ vAfter s vf = 0x07 := by decide
/-- T-A6 -/
theorem test_andReg : vAfter (((at_ 0x200 0x8012).writeV 0 0x3C).writeV 1 0x0F) 0 = 0x0C := by decide
/-- T-A7 -/
theorem test_xorReg : vAfter (((at_ 0x200 0x8013).writeV 0 0xFF).writeV 1 0x0F) 0 = 0xF0 := by decide
/-- T-A10 -/
theorem test_addReg_255 : let s := (((at_ 0x200 0x8124).writeV 1 0x80).writeV 2 0x7F).writeV vf 1
    vAfter s 1 = 0xFF ∧ vAfter s vf = 0 := by decide
/-- T-A12, T-A13 -/
theorem test_addReg_vf : vAfter (((at_ 0x200 0x8F14).writeV vf 0xFF).writeV 1 1) vf = 0 ∧
    vAfter (((at_ 0x200 0x80F4).writeV 0 0x10).writeV vf 1) 0 = 0x11 := by decide
/-- T-A15 -/
theorem test_sub_borrow : let s := ((at_ 0x200 0x8125).writeV 1 0x03).writeV 2 0x05
    vAfter s 1 = 0xFE ∧ vAfter s vf = 0 := by decide
/-- T-A16, T-A17 -/
theorem test_sub_equal : vAfter (((at_ 0x200 0x8125).writeV 1 7).writeV 2 7) vf = 1 ∧
    vAfter ((at_ 0x200 0x8FF5).writeV vf 9) vf = 0 := by decide
/-- T-A19 -/
theorem test_shr : let s := ((at_ 0x200 0x8456).writeV 4 0x04).writeV 5 0xFF
    vAfter s 4 = 0x02 ∧ vAfter s vf = 0 := by decide
/-- T-A20 -/
theorem test_shr_vf : vAfter ((at_ 0x200 0x8F06).writeV vf 3) vf = 1 := by decide
/-- T-A21 -/
theorem test_subn : let s := ((at_ 0x200 0x8017).writeV 0 3).writeV 1 5
    vAfter s 0 = 2 ∧ vAfter s vf = 1 := by decide
/-- T-A23 -/
theorem test_subn_vf : vAfter (((at_ 0x200 0x8F17).writeV vf 1).writeV 1 0) vf = 0xFF := by decide
/-- T-A24 -/
theorem test_shl : let s := (at_ 0x200 0x840E).writeV 4 0x81
    vAfter s 4 = 2 ∧ vAfter s vf = 1 := by decide
/-- T-A29: the draw's byte AND nn, whatever the byte is. -/
theorem test_rnd : vAfter (at_ 0x200 0xC30F) 3 = Config.rngByte 0 &&& 0x0F ∧
    (at_ 0x200 0xC30F).hostStep.rngDraws = 1 := ⟨rfl, rfl⟩
/-- T-A27, T-C22 -/
theorem test_illegal : (at_ 0x200 0x8018).hostStep.fault = some ⟨.illegalInstruction, 0x200, some 0x8018, .word 0x8018⟩ ∧
    (at_ 0x200 0x0123).hostStep.pc = 0x200 := by decide
/-- T-M1 -/
theorem test_ldI : (at_ 0x200 0xA2F0).hostStep.i = 0x2F0 := by decide
/-- T-M3 -/
theorem test_addI_wraps : (((at_ 0x200 0xF01E).setI 0xFFF).writeV 0 1).hostStep.i = 0 := by decide
/-- T-M4, T-M5 -/
theorem test_ldF : ((at_ 0x200 0xF729).writeV 7 0x0A).hostStep.i = 0x32 ∧
    ((at_ 0x200 0xF029).writeV 0 0xFF).hostStep.i = 0x4FB := by decide
/-- T-M6 -/
theorem test_ldB : let s := ((at_ 0x200 0xF033).setI 0x300).writeV 0 156
    memAfter s 0x300 = 1 ∧ memAfter s 0x301 = 5 ∧ memAfter s 0x302 = 6 := by decide
/-- T-M9, T-M10 -/
theorem test_ldB_faults :
    (((at_ 0x200 0xF033).setI 0xFFE).writeV 0 1).hostStep.fault =
        some ⟨.dataOutOfRange, 0x200, some 0xF033, .addr 0xFFE⟩ ∧
      (((at_ 0x200 0xF033).setI 0x1FF).writeV 0 1).hostStep.fault =
        some ⟨.reservedWrite, 0x200, some 0xF033, .addr 0x1FF⟩ := by decide
/-- T-M12 -/
theorem test_ldMemV : let s := ((((at_ 0x200 0xF255).setI 0x400).writeV 0 0x11).writeV 1 0x22).writeV 2 0x33
    memAfter s 0x400 = 0x11 ∧ memAfter s 0x402 = 0x33 ∧ memAfter s 0x403 = 0 ∧ s.hostStep.i = 0x400 := by decide
/-- T-M13, T-M14 -/
theorem test_ldMemV_edge : ((at_ 0x200 0xFF55).setI 0xFF0).hostStep.halted = false ∧
    ((at_ 0x200 0xFF55).setI 0xFF1).hostStep.halted = true := by decide
/-- T-M15, T-M18 -/
theorem test_ldVMem :
    let s := { (at_ 0x200 0xF265).setI 0x300 with mem := [(0x200, 0xF2), (0x201, 0x65), (0x300, 1), (0x301, 5), (0x302, 6)] }
    vAfter (s.writeV 3 0xEE) 2 = 6 ∧ vAfter (s.writeV 3 0xEE) 3 = 0xEE ∧ vAfter (at_ 0x200 0xF065) 0 = 0xF0 := by decide
/-- T-M17 -/
theorem test_ldVMem_fault : ((at_ 0x200 0xF165).setI 0xFFF).hostStep.fault =
    some ⟨.dataOutOfRange, 0x200, some 0xF165, .addr 0xFFF⟩ := by decide
/-- T-D1 -/
theorem test_cls : let s := (at_ 0x200 0x00E0).setFb (gridSet (gridSet blankFb 0 0 true) 63 31 true)
    s.hostStep.pixel 0 0 = false ∧ s.hostStep.pixel 63 31 = false := by decide
/-- T-D3 -/
theorem test_drw_wraps :
    let s := { (((at_ 0x200 0xD011).setI 0x300).writeV 0 62).writeV 1 31 with
      mem := [(0x200, 0xD0), (0x201, 0x11), (0x300, 0xFF)] }
    s.hostStep.pixel 62 31 ∧ s.hostStep.pixel 5 31 ∧ s.hostStep.pixel 6 31 = false ∧ vAfter s vf = 0 := by decide
/-- T-D8: the coordinate is the old VF. -/
theorem test_drw_collision :
    let s := { (((at_ 0x200 0xDF01).setI 0x300).writeV vf 5).setFb (gridSet blankFb 5 0 true) with
      mem := [(0x200, 0xDF), (0x201, 0x01), (0x300, 0x80)] }
    s.hostStep.pixel 5 0 = false ∧ vAfter s vf = 1 := by decide
/-- T-K1, T-K5 -/
theorem test_skp : (((at_ 0x220 0xE19E).writeV 1 0xA).setKey 0xA true).hostStep.pc = 0x224 ∧
    ((at_ 0x220 0xE19E).writeV 1 0x10).hostStep.fault =
      some ⟨.keyIndexOutOfRange, 0x220, some 0xE19E, .key 0x10⟩ := by decide
/-- T-K3, T-K4 -/
theorem test_sknp : ((at_ 0x220 0xE1A1).writeV 1 0xA).hostStep.pc = 0x224 ∧
    (((at_ 0x220 0xE1A1).writeV 1 0xA).setKey 0xA true).hostStep.pc = 0x222 := by decide
/-- T-T1 -/
theorem test_ldVxDt : vAfter ((at_ 0x200 0xF507).setDt 0x3C) 5 = 0x3C := by decide
/-- T-K7 -/
theorem test_ldVxK_waits : (at_ 0x206 0xF30A).hostStep.pc = 0x206 := by decide
/-- T-K8 -/
theorem test_ldVxK_lowest : let s := ((at_ 0x206 0xF30A).setKey 0xA true).setKey 7 true
    vAfter s 3 = 7 ∧ s.hostStep.pc = 0x208 ∧ s.hostStep.keyPressed 7 := by decide
/-- T-T2 -/
theorem test_ldDt : ((at_ 0x200 0xF015).writeV 0 5).hostStep.dt = 5 := by decide
/-- T-T3 -/
theorem test_ldSt : let s := ((at_ 0x200 0xF218).writeV 2 2).hostStep
    s.st = 2 ∧ s.soundActive ∧ s.tickTimers.tickTimers.soundActive = false := by decide

/-! ### The step, the faults and the host actions -/

/-- T-E1, T-E2 -/
theorem test_halted_step : let s := (at_ 0x200 0x0000).hostStep
    s.halted ∧ s.fault = some ⟨.illegalInstruction, 0x200, some 0, .word 0⟩ ∧ s.hostStep = s := by decide +kernel
/-- T-C20 -/
theorem test_fetch_fault : (State.reset.setPc 0xFFF).hostStep.fault =
    some ⟨.fetchOutOfRange, 0xFFF, none, .addr 0xFFF⟩ := by decide
/-- T-E3, T-H1 -/
theorem test_restore : let s := (at_ 0x200 0x7001).writeV 0 0x12
    let t := ((s.setKey 4 true).hostStep.tickTimers).restore s.capture
    t.readV 0 = 0x12 ∧ t.pc = 0x200 ∧ t.keyPressed 4 := by decide
/-- S9 -/
theorem test_tick : ((State.reset.setDt 5).tickTimers).dt = 4 ∧ State.reset.tickTimers.dt = 0 := by decide
/-- T-H3 -/
theorem test_load :
    let s := { State.reset with mem := [(0x200, 0x11), (0x201, 0x22), (0x202, 0x33), (0x203, 0x44)] }
    (s.act (.load [0xAA, 0xBB])).mem = [(0x200, 0xAA), (0x201, 0xBB), (0x202, 0x33), (0x203, 0x44)] := by decide
/-- S10 -/
theorem test_load_capacity : let a := Action.load (List.replicate 3585 0xFF)
    State.reset.answer a = .capacityExceeded ∧ (State.reset.act a).mem = [] ∧ (State.reset.act a).halted = false ∧
      State.reset.answer (.load (List.replicate 3584 0xFF)) = .done := by decide +kernel
/-- T-P2: 0.9, 0.81, 0.7290000000000001, 0.6561000000000001, 0.5904900000000002 as binary64 patterns. -/
theorem test_intensity_mul : let f := 0x3FECCCCCCCCCCCCD
    intensityMul 0x3FF0000000000000 f = 0x3FECCCCCCCCCCCCD ∧ intensityMul 0x3FECCCCCCCCCCCCD f = 0x3FE9EB851EB851EC ∧
      intensityMul 0x3FE9EB851EB851EC f = 0x3FE753F7CED91688 ∧
      intensityMul 0x3FE753F7CED91688 f = 0x3FE4FEC56D5CFAAE ∧
      intensityMul 0x3FE4FEC56D5CFAAE f = 0x3FE2E54B48D3AE6A := by decide +kernel
/-- T-P1, T-P3, T-P5 -/
theorem test_composite : let s := State.reset.composite (gridSet blankFb 0 0 true) true
    gridGet s.vis 0 0 = 0x3FF0000000000000 ∧ gridGet s.vis 1 0 = 0 ∧
      gridGet (s.composite blankFb false).vis 0 0 = 0 ∧
      gridGet ({ s with cfg := { s.cfg with decayFactor := 0x3FE0000000000000 } }.composite blankFb true).vis 0 0 =
        0x3FE0000000000000 := by decide +kernel

/-! ### Witnesses: a concrete state and operands that meet the hypotheses of each obligation that has some, and of each
of its clauses, at the ends of the clause's range -/

theorem witness_DecodeThenEncodeGivesWord : decode 0xFF65 = some (.ldVMem 15) := by decide
theorem witness_FetchIsBigEndian : (State.reset.setPc 0xFFE).pc.toNat ≤ 0xFFE := by decide
theorem witness_StepRunsDecodedInstruction : let s := at_ 0xFFE 0x1FFE
    s.halted = false ∧ s.pc.toNat ≤ 0xFFE ∧
      decode (Memory.read s.mem s.pc.toNat ++ Memory.read s.mem (s.pc.toNat + 1)) = some (.jp 0xFFE) := by decide
theorem witness_HaltedStepChangesNothing : let s := (at_ 0x200 0x0000).hostStep
    s.halted = true ∧ s.fault = some ⟨.illegalInstruction, 0x200, some 0, .word 0⟩ := by decide
theorem witness_HostActionsIgnoreTheHalt : (∃ k p, Action.setKey 15 true = .setKey k p) ∧
    (∃ bs, Action.load [] = .load bs) ∧ ∃ frame e, Action.composite blankFb true = .composite frame e :=
  ⟨⟨_, _, rfl⟩, ⟨_, rfl⟩, ⟨_, _, rfl⟩⟩
theorem witness_FetchPastTheEndFaults : let s := State.reset.setPc 0xFFF
    s.halted = false ∧ 0xFFE < s.pc.toNat := by decide
theorem witness_IllegalWordFaults : let s := at_ 0xFFE 0xFFFF
    s.halted = false ∧ s.fetch = some 0xFFFF ∧ legalByFamily 0xFFFF = false := by decide
theorem witness_FaultsArePrecise : let s := at_ 0x210 0x00EE
    s.halted = false ∧ step s = .next s.hostStep ∧ s.hostStep.halted = true := ⟨by decide, rfl, by decide⟩
theorem witness_StepRaisesExactlyTheFaultTable :
    State.reset.halted = false ∧ State.reset.fault = none := ⟨rfl, rfl⟩
theorem witness_HaltLastsUntilRestoreOrConstruction :
    ((at_ 0x200 0x0000).hostStep).halted = true ∧
      ∀ a ∈ [Action.step, .tickTimers, .setKey 3 true, .load [0x12, 0x00], .capture], a.endsHalt = false := by decide
theorem witness_ConstructionWritesTheFontAndLoadNeverDoes :
    Memory.wf State.reset.mem ∧ State.reset.load [0x12] = .next (State.reset.act (.load [0x12])) ∧ 0x1FF < 0x200 :=
  ⟨by decide, rfl, by decide⟩
theorem witness_BootStartsAtTheFirstRomWord : (List.replicate 3582 (0x5A : Byte)).length ≤ 3582 ∧
    ([] : List Byte).length ≤ 3582 :=
  ⟨Nat.le_of_eq List.length_replicate, Nat.zero_le _⟩

/-- A state at the edges of the invariant: I = 0xFFF, PC = 0x10FE, a stack entry 0x1000. -/
def edgeState : State := { State.reset with i := 0xFFF, pc := 0x10FE, stack := [0x1000] }

theorem edgeState_inv : StateInv edgeState where
  memory := by decide
  index := by decide
  pc := by decide
  stack := by intro a ha; rw [List.mem_singleton.1 ha]; decide
  halt := rfl
  record := by rintro r ⟨⟩
  decay := by decide
  vis := by
    intro x y
    rw [show edgeState.vis = Vector.replicate 64 (Vector.replicate 32 Config.zeroIntensity) from rfl, gridGet_replicate]
    decide

theorem witness_StepKeepsTheInvariant : StateInv edgeState ∧ step edgeState = .next edgeState.hostStep :=
  ⟨edgeState_inv, rfl⟩
theorem witness_HostActionsKeepTheInvariant : StateInv edgeState ∧ (Action.restore edgeState.capture).Admissible ∧
    Action.construct.Admissible := by
  refine ⟨edgeState_inv, ?_, by rintro _ ⟨⟩⟩
  rintro _ ⟨⟩
  exact ⟨edgeState_inv.memory, edgeState_inv.index, edgeState_inv.pc, edgeState_inv.stack⟩
theorem witness_ReturnPopsTheTopEntry : let s := { at_ 0x400 0x00EE with stack := [0x204, 0x1000] }
    s.stack = [0x204] ++ [0x1000] ∧ s.halted = false ∧ State.reset.stack = [] := by decide
theorem witness_JumpGoesToTheAddress : let s := at_ 0xFFE 0x1FFE
    s.halted = false ∧ s.pc = (0xFFE#12).setWidth 16 ∧ s.fetch = some (0x1#4 ++ 0xFFE#12) := by decide
theorem witness_CallPushesTheReturnAddress :
    let limited := { State.reset with cfg := { Config.default with stackLimit := some 1 } }
    State.reset.cfg.stackLimit ≠ some State.reset.stack.length ∧
      limited.cfg.stackLimit ≠ some limited.stack.length ∧
      { limited with stack := [0x202] }.cfg.stackLimit = some { limited with stack := [0x202] }.stack.length := by
  decide
theorem witness_SkipsOnRegister : let s := at_ 0x300 0x512F
    (15 : BitVec 4) ≠ 0 ∧ s.halted = false ∧
      s.fetch = some (0x5#4 ++ BitVec.ofNat 4 (1 : Reg) ++ BitVec.ofNat 4 (2 : Reg) ++ 15#4) ∧
      (at_ 0x300 0x9121).fetch = some (0x9#4 ++ BitVec.ofNat 4 (1 : Reg) ++ BitVec.ofNat 4 (2 : Reg) ++ 1#4) := by decide
/-- For the five flag-writing ALU statements: a destination that is not VF. -/
theorem witness_flagClauses : (0 : Reg) ≠ vf ∧ (14 : Reg) ≠ vf := by decide
/-- For BCD: I = 0x200 and 0xFFD complete, 0x1FF completes under the policy `write`, 0xFFE is out of range, and 0x1FF
is reserved under `fault`. -/
theorem witness_BcdStoresTheThreeDigits :
    let completes := fun (s : State) => Memory.wf s.mem ∧ s.i.toNat + 2 ≤ 0xFFF ∧
      (s.cfg.reservedWrite = .fault → 0x1FF < s.i.toNat)
    let writable := { State.reset with cfg := { Config.default with reservedWrite := .write } }
    completes (State.reset.setI 0x200) ∧ completes (State.reset.setI 0xFFD) ∧ completes (writable.setI 0x1FF) ∧
      0xFFF < (State.reset.setI 0xFFE).i.toNat + 2 ∧
      (State.reset.setI 0x1FF).i.toNat ≤ 0x1FF ∧ (State.reset.setI 0x1FF).cfg.reservedWrite = .fault := by decide
/-- For the register dump: x = 0 and 15 at the last address, the policy `write`, one byte too many, reserved. -/
theorem witness_DumpStoresTheRegisters :
    let completes := fun (s : State) (x : Reg) => Memory.wf s.mem ∧ s.i.toNat + x.val ≤ 0xFFF ∧
      (s.cfg.reservedWrite = .fault → 0x1FF < s.i.toNat)
    let writable := { State.reset with cfg := { Config.default with reservedWrite := .write } }
    completes (State.reset.setI 0xFFF) 0 ∧ completes (State.reset.setI 0xFF0) 15 ∧ completes (State.reset.setI 0x200) 0 ∧
      completes (writable.setI 0) 15 ∧ (0 : Reg) ≤ 15 ∧
      0xFFF < (State.reset.setI 0xFF1).i.toNat + (15 : Reg).val ∧
      (State.reset.setI 0x1FF).i.toNat ≤ 0x1FF ∧ (State.reset.setI 0x1FF).cfg.reservedWrite = .fault := by decide
theorem witness_LoadFillsTheRegisters :
    (State.reset.setI 0xFFF).i.toNat + (0 : Reg).val ≤ 0xFFF ∧ (State.reset.setI 0xFF0).i.toNat + (15 : Reg).val ≤ 0xFFF ∧
      0xFFF < (State.reset.setI 0xFFF).i.toNat + (1 : Reg).val := by decide
theorem witness_StoredBytesAreFetched : let s := State.reset.setI 0xFF0
    Memory.wf s.mem ∧ s.i.toNat + (15 : Reg).val ≤ 0xFFF ∧ 0x1FF < s.i.toNat ∧
      (0xFFE : Word).toNat = s.i.toNat + (14 : Reg).val ∧ (15 : Reg).val = (14 : Reg).val + 1 := by decide
theorem witness_DrawFlipsTheCoveredPixels : let s := State.reset.setI 0xFFF
    s.i.toNat + (1 : BitVec 4).toNat - 1 ≤ 0xFFF ∧ (2 : BitVec 4) ≠ 0 ∧
      0xFFF < s.i.toNat + (2 : BitVec 4).toNat - 1 := by decide
theorem witness_DrawTwiceRestoresTheFramebuffer : let s := State.reset.setI 0xFFF
    (0 : Reg) ≠ vf ∧ s.i.toNat + (1 : BitVec 4).toNat ≤ 4096 ∧
      ∀ px py, SpriteCovers s (s.readV 0).toNat (s.readV 1).toNat 1 px py → s.pixel px py = false := by
  refine ⟨by decide, by decide, ?_⟩
  intro px py _
  simp [State.pixel, State.reset, State.fresh]
theorem witness_KeySkipsReadTheLatch : (State.reset.writeV 1 15).readV 1 = BitVec.ofNat 8 (15 : KeyId).val ∧
    15 < ((State.reset.writeV 1 16).readV 1).toNat := by decide
theorem witness_KeyWaitTakesTheLowestKey : let s := State.reset.setKey 15 true
    s.keyPressed 15 = true ∧ (∀ j, j < 15 → s.keyPressed j = false) ∧ ∀ k, State.reset.keyPressed k = false := by decide
theorem witness_KeyWaitRepeatsUntilAKeyIsPressed : let s := at_ 0x206 0xF30A
    s.halted = false ∧ s.fetch = some (encode (.ldVxK 3)) ∧ ∀ j, s.keyPressed j = false := by decide
theorem witness_TicksCountDownToZero : 0 < (State.reset.setDt 1).dt.toNat ∧ State.reset.dt = 0 ∧
    0 < (State.reset.setSt 255).st.toNat ∧ State.reset.st = 0 := by decide
theorem witness_SetKeyWritesOneLatchAndInstructionsNone : exec (.ldVxK 0) State.reset = .next (State.reset.setPc 0x1FE) := rfl
theorem witness_LoadCopiesTheRomOrFails : Memory.wf State.reset.mem ∧
    (List.replicate 3584 (0 : Byte)).length ≤ 3584 ∧ (List.replicate 3584 (7 : Byte))[3583]? = some 7 ∧
      3584 < (List.replicate 3585 (0 : Byte)).length := by
  refine ⟨by decide, Nat.le_of_eq List.length_replicate, ?_, ?_⟩
  · rw [List.getElem?_replicate]; decide
  · rw [List.length_replicate]; decide
theorem witness_RestoreGivesBackWhatWasCaptured :
    State.reset.answer .capture = .snapshot State.reset.capture := rfl
/-- 0.0, the smallest subnormal, and 1.0 are intensities; the product of a tie and its own candidate meet the last
hypothesis. -/
theorem witness_DecayNeverBrightens : wellFormedIntensity 0 = true ∧ wellFormedIntensity 1 = true ∧
    wellFormedIntensity 0x3FF0000000000000 = true := by decide
/-- Half the smallest subnormal is a tie between 0.0 and it: both are as near, and 0.0 is the even one. -/
theorem witness_IntensityProductIsNearestEven : let v : Intensity := 1
    let f : Intensity := 0x3FE0000000000000
    wellFormedIntensity v = true ∧ wellFormedIntensity f = true ∧ intensityMul v f = 0 ∧
      ((intensityUnits 0 : Int) * 2 ^ 1074 - intensityUnits v * intensityUnits f).natAbs =
        ((intensityUnits 1 : Int) * 2 ^ 1074 - intensityUnits v * intensityUnits f).natAbs := by decide +kernel
/-- Two machines that differ in Vis and in DECAY_FACTOR. -/
theorem witness_MachineIgnoresTheCompositor :
    let s := { State.reset with cfg := { Config.default with decayFactor := 0 } }
    s.withoutDisplay = (State.reset.composite (gridSet blankFb 0 0 true) true).withoutDisplay ∧
      (Action.step).isComposite = false := ⟨rfl, rfl⟩
theorem witness_InstructionsWriteOnlyTheirParts : Memory.wf (at_ 0x200 0xFF55).mem := by decide
theorem witness_FinalPcFollowsTheTable : let s := (at_ 0xFFC 0x3F00).writeV vf 0
    s.halted = false ∧ s.fetch = some 0x3F00 ∧ decode 0x3F00 = some (.seImm vf 0) ∧ step s = .next s.hostStep ∧
      s.hostStep.halted = false := by
  exact ⟨by decide, by decide, by decide, rfl, by decide⟩
theorem witness_EndOfRunIsAFixedPoint : (at_ 0xFFE 0x1FFE).endOfRun = true ∧
    ((at_ 0x200 0x0000).hostStep).endOfRun = true := by decide
/-- Log entry 18: the sprite's one set bit falls on a lit pixel, and the second draw does not collide. -/
theorem test_draw_twice_over_lit :
    let s := { (at_ 0x200 0xD011).setI 0x300 with
      mem := [(0x200, 0xD0), (0x201, 0x11), (0x300, 0x80)], fb := gridSet blankFb 0 0 true }
    vAfter s vf = 1 ∧ vAfter (s.hostStep.setPc 0x200) vf = 0 := by decide

end Sys2Proof.Tests
end

section
/-!
SUPPORT. What an instruction and a step answer: a next state, of which a property is shown by naming the state. Proofs
about every instruction go through `answers_next` and `answers_commit_map`, the two ways an instruction's meaning ends.
-/

namespace Sys2Proof.Machine

/-- The result is a next state, and the state satisfies `P`. -/
def Answers (r : Result) (P : State → Prop) : Prop := ∃ t, r = .next t ∧ P t

theorem answers_next {P : State → Prop} {t : State} (h : P t) : Answers (.next t) P := ⟨t, rfl, h⟩

/-- A property of the answer holds of the state a result is known to end in. -/
theorem Answers.of_eq_next {P : State → Prop} {r : Result} {t : State} (h : Answers r P) (e : r = .next t) : P t := by
  obtain ⟨u, hu, hP⟩ := h
  rw [e] at hu
  exact Host.Outcome.next.inj hu ▸ hP

/-- A commit answers the instruction's own state, or the fault taken from `s` (30_encoding.md R97, 60_exceptions.md
R230). -/
theorem answers_commit {P : State → Prop} {i : Instr} {s : State} {r : Except Cause State}
    (hok : ∀ t, r = .ok t → P t) (herr : ∀ c, P (s.takeFault (s.pc - 2) (some (encode i)) c)) :
    Answers (s.commit i r) P := by
  obtain ⟨t, ht, e⟩ | ⟨c, -, e⟩ := State.commit_cases i s r
  · exact ⟨t, e, hok t ht⟩
  · exact ⟨_, e, herr c⟩

/-- A commit of an access that may raise, followed by writes that do not. -/
theorem answers_commit_map {α : Type} {P : State → Prop} {i : Instr} {s : State} {r : Except Cause α} {f : α → State}
    (hok : ∀ a, r = .ok a → P (f a)) (herr : ∀ c, P (s.takeFault (s.pc - 2) (some (encode i)) c)) :
    Answers (s.commit i (r.map f)) P := by
  refine answers_commit (fun t ht => ?_) herr
  cases r with
  | ok a => exact Except.ok.inj ht ▸ hok a rfl
  | error c => cases ht

/-! ### What the shared operations leave when they do not raise -/

theorem State.memWrite_eq_ok {s t : State} {addr : Word} {bs : List Byte} (h : s.memWrite addr bs = .ok t) :
    t = { s with mem := Memory.writeBytes s.mem addr.toNat bs } := by
  cases bs with
  | nil => exact (Except.ok.inj h).symm
  | cons b bs =>
    obtain ⟨-, -, e⟩ | ⟨-, e⟩ | ⟨-, -, -, e⟩ := State.memWrite_cases s addr (b :: bs) (by simp) <;> rw [e] at h
    · exact (Except.ok.inj h).symm
    · cases h
    · cases h

theorem State.push_eq_ok {s t : State} {a : Word} (h : s.push a = .ok t) : t = { s with stack := s.stack ++ [a] } := by
  obtain ⟨-, e⟩ | ⟨-, e⟩ := State.push_cases s a <;> rw [e] at h
  · exact (Except.ok.inj h).symm
  · cases h

theorem State.pop_eq_ok {s : State} {p : Word × State} (h : s.pop = .ok p) :
    s.stack = p.2.stack ++ [p.1] ∧ p.2 = { s with stack := p.2.stack } := by
  obtain ⟨-, e⟩ | ⟨r, rest, hs, e⟩ := State.pop_cases s <;> rw [e] at h
  · cases h
  · exact Except.ok.inj h ▸ ⟨hs, rfl⟩

theorem keyOperand_eq_ok {b : Byte} {k : KeyId} (h : keyOperand b = .ok k) : k.val = b.toNat := by
  obtain ⟨hb, e⟩ | ⟨-, e⟩ := keyOperand_cases b <;> rw [e] at h
  · exact Except.ok.inj h ▸ rfl
  · cases h

/-! ### What a step does -/

/-- A step of a running machine whose word decodes is the execute stage with the provisional PC (30_encoding.md R93 to
R97). -/
theorem step_eq_exec {s : State} {w : Word} {i : Instr} (hh : s.halted = false) (hf : s.fetch = some w)
    (hd : decode w = some i) : step s = exec i s.provisional := by
  simp [step, State.front, hh, hf, hd]

/-- A step that executes nothing ends where the stages before execute end. -/
theorem step_eq_next_of_front_error {s t : State} (e : s.front = .error t) : step s = .next t := by
  simp only [step, e]

/-- A step answers a halted machine as it is, the fault taken at PC by fetch or decode, or what the instruction
answers. -/
theorem step_answers {P : State → Prop} {s : State} (hhalt : s.halted = true → P s)
    (hfault : s.halted = false → ∀ w c, P (s.takeFault s.pc w c))
    (hexec : ∀ i, s.halted = false → s.pc.toNat ≤ 0xFFE → Answers (exec i s.provisional) P) :
    Answers (step s) P := by
  obtain ⟨hh, e⟩ | ⟨hh, -, e⟩ | ⟨w, hh, -, -, -, e⟩ | ⟨w, i, hh, hpc, hf, hd, -⟩ := State.front_cases s
  · exact ⟨s, step_eq_next_of_front_error e, hhalt hh⟩
  · exact ⟨_, step_eq_next_of_front_error e, hfault hh _ _⟩
  · exact ⟨_, step_eq_next_of_front_error e, hfault hh _ _⟩
  · exact step_eq_exec hh hf hd ▸ hexec i hh hpc

end Sys2Proof.Machine
end

section
/-!
SUPPORT. The invariant of the reachable states under the operations over the state, and under a step.
-/

namespace Sys2Proof.Machine

/-! ### Bounds of the operand forms -/

theorem addressOperand_le (nnn : BitVec 12) : (addressOperand nnn).toNat ≤ 0xFFF := by
  simp only [addressOperand, BitVec.toNat_setWidth]
  omega

theorem indexSum_le (i : Word) (b : Byte) : (indexSum i b).toNat ≤ 0xFFF := by
  simp only [indexSum, BitVec.toNat_ofNat]
  omega

theorem glyphAddress_le (b : Byte) : (glyphAddress b).toNat ≤ 0xFFF := by
  have hb : b.toNat < 256 := b.isLt
  rw [glyphAddress, BitVec.toNat_ofNat]
  exact (Nat.mod_le _ _).trans (by omega)

/-- The largest target of Bnnn is 0xFFF + 0xFF, decision D13. -/
theorem offsetTarget_le (nnn : BitVec 12) (b : Byte) : (offsetTarget nnn b).toNat ≤ 0x10FE := by
  simp only [offsetTarget, addressOperand, wordOf, BitVec.toNat_add, BitVec.toNat_setWidth]
  omega

/-! ### The operations keep the invariant -/

namespace StateInv

variable {s : State}

theorem writeV (h : StateInv s) (x : Reg) (b : Byte) : StateInv (s.writeV x b) := { h with }
theorem writeFirst (h : StateInv s) (bs : List Byte) : StateInv (s.writeFirst bs) := { h with }
theorem writeFlagThenValue (h : StateInv s) (x : Reg) (flag value : Byte) :
    StateInv (s.writeFlagThenValue x flag value) := (h.writeV vf flag).writeV x value
theorem setDt (h : StateInv s) (b : Byte) : StateInv (s.setDt b) := { h with }
theorem setSt (h : StateInv s) (b : Byte) : StateInv (s.setSt b) := { h with }
theorem setFb (h : StateInv s) (g : Grid Bool) : StateInv (s.setFb g) := { h with }
theorem drawn (h : StateInv s) : StateInv s.drawn := { h with }
theorem drawSprite (h : StateInv s) (vx vy : Byte) (rows : List Byte) : StateInv (s.drawSprite vx vy rows) :=
  (h.writeV vf _).setFb _

theorem setI (h : StateInv s) {a : Word} (ha : a.toNat ≤ 0xFFF) : StateInv (s.setI a) := { h with index := ha }

theorem writeBytes (h : StateInv s) (a : Nat) (bs : List Byte) :
    StateInv { s with mem := Memory.writeBytes s.mem a bs } :=
  { h with memory := Memory.wf_writeBytes bs s.mem a h.memory }

theorem withStack (h : StateInv s) {l : List Word} (hl : ∀ a ∈ l, a.toNat ≤ 0x1000) :
    StateInv { s with stack := l } := { h with stack := hl }

/-- A running machine has recorded no fault. -/
theorem fault_eq_none (h : StateInv s) (hh : s.halted = false) : s.fault = none := by
  simpa [hh] using h.halt

/-- PC may move while the machine runs; on a halted one the record holds it. -/
theorem setPc (h : StateInv s) (hh : s.halted = false) {a : Word} (ha : a.toNat ≤ 0x10FE) : StateInv (s.setPc a) :=
  { h with pc := ha, record := by simp [h.fault_eq_none hh] }

/-- The fault entry records the PC it leaves (60_exceptions.md R230). -/
theorem takeFault (h : StateInv s) {a : Word} (ha : a.toNat ≤ 0x10FE) (w : Option Word) (c : Cause) :
    StateInv (s.takeFault a w c) :=
  { h with pc := ha, halt := rfl, record := by rintro _ ⟨⟩; rfl }

end StateInv

/-! ### The invariant during execute -/

/-- The invariant in the execute stage: the machine runs, and PC is provisional, 2 past an address a word is fetched
from (30_encoding.md R94, R95). -/
structure ExecInv (s : State) : Prop where
  inv : StateInv s
  running : s.halted = false
  two_le_pc : 2 ≤ s.pc.toNat
  pc_le : s.pc.toNat ≤ 0x1000

namespace ExecInv

variable {s : State}

theorem provisional (h : StateInv s) (hh : s.halted = false) (hpc : s.pc.toNat ≤ 0xFFE) : ExecInv s.provisional := by
  have hv : (s.pc + 2).toNat = s.pc.toNat + 2 := by bv_omega
  exact ⟨h.setPc hh (by omega), hh, by rw [State.provisional_pc]; omega, by rw [State.provisional_pc]; omega⟩

/-- The fetch address is within the bounds of PC. -/
theorem fetchAddress_le (h : ExecInv s) : (s.pc - 2).toNat ≤ 0x10FE := by
  have h2 := h.two_le_pc
  have hle := h.pc_le
  bv_omega

/-- A taken skip leaves PC at most 0x1002. -/
theorem skipIf (h : ExecInv s) (taken : Bool) : StateInv (s.skipIf taken) := by
  have hle := h.pc_le
  unfold State.skipIf
  split
  · exact h.inv.setPc h.running (by bv_omega)
  · exact h.inv

theorem commit_map (h : ExecInv s) {α : Type} {i : Instr} {r : Except Cause α} {f : α → State}
    (hok : ∀ a, r = .ok a → StateInv (f a)) : Answers (s.commit i (r.map f)) StateInv :=
  answers_commit_map hok fun c => h.inv.takeFault h.fetchAddress_le _ c

theorem commit_writeAtI (h : ExecInv s) (i : Instr) (bs : List Byte) :
    Answers (s.commit i (s.writeAtI bs)) StateInv :=
  answers_commit (fun _ ht => State.memWrite_eq_ok ht ▸ h.inv.writeBytes _ _)
    fun c => h.inv.takeFault h.fetchAddress_le _ c

/-- RET: every stack entry is a possible PC. -/
theorem ret (h : ExecInv s) : Answers (execRet s) StateInv := by
  refine h.commit_map fun p hp => ?_
  obtain ⟨hs, he⟩ := State.pop_eq_ok hp
  have hstack : ∀ a ∈ p.2.stack ++ [p.1], a.toNat ≤ 0x1000 := hs ▸ h.inv.stack
  have htop : p.1.toNat ≤ 0x1000 := hstack p.1 (by simp)
  rw [he]
  have hrest : StateInv { s with stack := p.2.stack } := h.inv.withStack fun a ha => hstack a (by simp [ha])
  exact hrest.setPc h.running (by omega)

/-- CALL: the provisional PC is a possible stack entry. -/
theorem call (h : ExecInv s) (nnn : BitVec 12) : Answers (execCall nnn s) StateInv := by
  refine h.commit_map fun t ht => ?_
  have hle := addressOperand_le nnn
  have hstack : ∀ a ∈ s.stack ++ [s.pc], a.toNat ≤ 0x1000 := by
    intro a ha
    obtain ha | ha := List.mem_append.1 ha
    · exact h.inv.stack a ha
    · exact List.mem_singleton.1 ha ▸ h.pc_le
  rw [State.push_eq_ok ht]
  exact (h.inv.withStack hstack).setPc h.running (by omega)

/-- Fx0A: a register is written, or PC is put back to the fetch address. -/
theorem ldVxK (h : ExecInv s) (x : Reg) : Answers (execLdVxK x s) StateInv := by
  unfold execLdVxK
  split
  · exact answers_next (h.inv.writeV x _)
  · exact answers_next (h.inv.setPc h.running h.fetchAddress_le)

end ExecInv

/-- Every instruction keeps the invariant, whether it completes or raises. -/
theorem exec_keeps_stateInv {s : State} (h : ExecInv s) (i : Instr) : Answers (exec i s) StateInv := by
  have hs : StateInv s := h.inv
  cases i with
  | cls => exact answers_next (hs.setFb _)
  | ret => exact h.ret
  | jp nnn => exact answers_next (hs.setPc h.running ((addressOperand_le nnn).trans (by decide)))
  | call nnn => exact h.call nnn
  | jpV0 nnn => exact answers_next (hs.setPc h.running (offsetTarget_le nnn _))
  | seImm | sneImm | seReg | sneReg => exact answers_next (h.skipIf _)
  | ldImm | addImm | ldReg | orReg | andReg | xorReg | ldVxDt => exact answers_next (hs.writeV _ _)
  | addReg | sub | shr | subn | shl => exact answers_next (hs.writeFlagThenValue _ _ _)
  | rnd => exact answers_next (hs.drawn.writeV _ _)
  | ldI nnn => exact answers_next (hs.setI (addressOperand_le nnn))
  | addI => exact answers_next (hs.setI (indexSum_le _ _))
  | ldF => exact answers_next (hs.setI (glyphAddress_le _))
  | drw => exact h.commit_map fun rows _ => hs.drawSprite _ _ rows
  | skp | sknp => exact h.commit_map fun _ _ => h.skipIf _
  | ldVxK x => exact h.ldVxK x
  | ldDt => exact answers_next (hs.setDt _)
  | ldSt => exact answers_next (hs.setSt _)
  | ldB | ldMemV => exact h.commit_writeAtI _ _
  | ldVMem => exact h.commit_map fun bs _ => hs.writeFirst bs

theorem step_keeps_stateInv {s : State} (h : StateInv s) : Answers (step s) StateInv :=
  step_answers (fun _ => h) (fun _ w c => h.takeFault h.pc w c) fun i hh hpc =>
    exec_keeps_stateInv (ExecInv.provisional h hh hpc) i

/-- Settles O20: fetch and decode change nothing or take a fault at PC, and execute starts from a state that satisfies
`ExecInv`, from which every instruction answers a state that satisfies the invariant. -/
theorem stepKeepsTheInvariant : Obligations.StepKeepsTheInvariant :=
  fun _ _ h e => (step_keeps_stateInv h).of_eq_next e

end Sys2Proof.Machine
end

section
/-!
SUPPORT. The final PC of an instruction that completes (10_state.md R24), in the execute stage, where PC is a + 2.
-/

namespace Sys2Proof.Machine

/-- If instruction `i`, started in `s` with the provisional PC, completes in `t`, PC is the table's. -/
def EndsAtFinalPc (i : Instr) (s t : State) : Prop := t.halted = false → t.pc = instrFinalPc i (s.pc - 2) s

/-- Before the provisional PC is set, the table reads the same. -/
theorem instrFinalPc_provisional (i : Instr) (a : Word) (s : State) :
    instrFinalPc i a s.provisional = instrFinalPc i a s := rfl

/-- The PC of a skip is the table's for the skip's condition. -/
theorem State.skipIf_pc (s : State) {taken : Bool} {p : Prop} [Decidable p] (h : taken = true ↔ p) :
    (s.skipIf taken).pc = skipTarget (s.pc - 2) p := by
  unfold State.skipIf skipTarget
  by_cases hp : p
  · rw [if_pos (h.2 hp), if_pos hp, State.setPc_pc]
    bv_omega
  · rw [if_neg (mt h.1 hp), if_neg hp, BitVec.sub_add_cancel]

/-- The latch a key operand names has a property exactly when some latch of that number has it. -/
theorem keyOperand_iff_exists {b : Byte} {k : KeyId} (hk : keyOperand b = .ok k) (p : KeyId → Prop) :
    p k ↔ ∃ j, p j ∧ j.val = b.toNat := by
  have hv := keyOperand_eq_ok hk
  refine ⟨fun h => ⟨k, h, hv⟩, ?_⟩
  rintro ⟨j, hj, hjv⟩
  exact Fin.ext (hjv.trans hv.symm) ▸ hj

section
variable {i : Instr} {s : State}

/-- An instruction the table gives a + 2, completing with PC as it found it. -/
theorem endsAtFinalPc_of_pc_eq {t : State} (hi : instrFinalPc i (s.pc - 2) s = s.pc - 2 + 2) (ht : t.pc = s.pc) :
    EndsAtFinalPc i s t := fun _ => by rw [hi, ht, BitVec.sub_add_cancel]

/-- A fault taken halts, so only the completed commit is to be looked at. -/
theorem commit_map_endsAtFinalPc {α : Type} {r : Except Cause α} {f : α → State}
    (hok : ∀ a, r = .ok a → EndsAtFinalPc i s (f a)) : Answers (s.commit i (r.map f)) (EndsAtFinalPc i s) :=
  answers_commit_map hok fun _ hh => nomatch hh

theorem commit_writeAtI_endsAtFinalPc (hi : instrFinalPc i (s.pc - 2) s = s.pc - 2 + 2) (bs : List Byte) :
    Answers (s.commit i (s.writeAtI bs)) (EndsAtFinalPc i s) :=
  answers_commit (fun _ ht => endsAtFinalPc_of_pc_eq hi (State.memWrite_eq_ok ht ▸ rfl)) fun _ hh => nomatch hh

end

theorem execRet_endsAtFinalPc (s : State) : Answers (execRet s) (EndsAtFinalPc .ret s) := by
  refine commit_map_endsAtFinalPc fun p hp _ => ?_
  obtain ⟨hs, -⟩ := State.pop_eq_ok hp
  simp [instrFinalPc, hs]

theorem execLdVxK_endsAtFinalPc (x : Reg) (s : State) : Answers (execLdVxK x s) (EndsAtFinalPc (.ldVxK x) s) := by
  unfold execLdVxK
  obtain ⟨k, e, hk, -⟩ | ⟨e, hn⟩ := State.lowestKey_cases s
  · rw [e]
    exact answers_next (endsAtFinalPc_of_pc_eq (if_pos ⟨k, hk⟩) rfl)
  · rw [e]
    exact answers_next fun _ => (if_neg (by simp [hn])).symm

/-- Every instruction that completes leaves the PC of the table. -/
theorem exec_endsAtFinalPc (i : Instr) (s : State) : Answers (exec i s) (EndsAtFinalPc i s) := by
  cases i with
  | ret => exact execRet_endsAtFinalPc s
  | jp | jpV0 => exact answers_next fun _ => rfl
  | call => exact commit_map_endsAtFinalPc fun _ _ _ => rfl
  | seImm | seReg => exact answers_next fun _ => s.skipIf_pc beq_iff_eq
  | sneImm | sneReg => exact answers_next fun _ => s.skipIf_pc bne_iff_ne
  | skp =>
    exact commit_map_endsAtFinalPc fun _ hk _ =>
      s.skipIf_pc (keyOperand_iff_exists hk fun j => s.keyPressed j = true)
  | sknp =>
    exact commit_map_endsAtFinalPc fun _ hk _ =>
      s.skipIf_pc (by rw [← keyOperand_iff_exists hk fun j => ¬ s.keyPressed j = true]; simp)
  | ldVxK x => exact execLdVxK_endsAtFinalPc x s
  | drw | ldVMem => exact commit_map_endsAtFinalPc fun _ _ => endsAtFinalPc_of_pc_eq rfl rfl
  | ldB | ldMemV => exact commit_writeAtI_endsAtFinalPc rfl _
  | cls | ldImm | addImm | ldReg | orReg | andReg | xorReg | addReg | sub | shr | subn | shl | ldI | rnd | ldVxDt
  | ldDt | ldSt | addI | ldF => exact answers_next (endsAtFinalPc_of_pc_eq rfl rfl)

/-- Settles O58: the step is the execute stage with the provisional PC, and every instruction that completes there
leaves the PC of the table. -/
theorem finalPcFollowsTheTable : Obligations.FinalPcFollowsTheTable := by
  intro s t w i hh hf hd e ht
  have hexec : exec i s.provisional = .next t := step_eq_exec hh hf hd ▸ e
  have hpc : t.pc = instrFinalPc i (s.provisional.pc - 2) s.provisional :=
    (exec_endsAtFinalPc i s.provisional).of_eq_next hexec ht
  rw [hpc, instrFinalPc_provisional, State.provisional_pc, BitVec.add_sub_cancel]

end Sys2Proof.Machine
end

section
/-!
SUPPORT. The bytes and the value of a fetched word (20_memory.md R51).
-/

namespace Sys2Proof

@[simp] theorem highByte_wordOfBytes (hi lo : Byte) : highByte (wordOfBytes hi lo) = hi :=
  BitVec.extractLsb'_append_eq_left

@[simp] theorem lowByte_wordOfBytes (hi lo : Byte) : lowByte (wordOfBytes hi lo) = lo :=
  BitVec.extractLsb'_append_eq_right

theorem toNat_wordOfBytes (hi lo : Byte) : (wordOfBytes hi lo).toNat = 256 * hi.toNat + lo.toNat := by
  have hlo : lo.toNat < 2 ^ 8 := lo.isLt
  rw [wordOfBytes, BitVec.toNat_append, ← Nat.shiftLeft_add_eq_or_of_lt hlo, Nat.shiftLeft_eq, Nat.mul_comm]

end Sys2Proof

namespace Sys2Proof.Machine

/-- Settles O6: the fetched word is the word of the two bytes at PC, whatever PC's parity. -/
theorem fetchIsBigEndian : Obligations.FetchIsBigEndian :=
  fun _ hpc => ⟨_, State.fetch_eq_some hpc, highByte_wordOfBytes _ _, lowByte_wordOfBytes _ _, toNat_wordOfBytes _ _⟩

end Sys2Proof.Machine
end

section
/-!
SUPPORT. What an instruction writes (10_state.md R21 to R37; 20_memory.md R54): the frame of each operation an
instruction completes with, and the fault table's entry for each access that raises (60_exceptions.md R220).
-/

namespace Sys2Proof.Machine

/-! ### Frames -/

theorem ChangesOnly.trans {P : Part → Prop} {s t u : State} (h : ChangesOnly P s t) (h' : ChangesOnly P t u) :
    ChangesOnly P s u := by
  intro p hp
  have hst : p.Same s t := h p hp
  have htu : p.Same t u := h' p hp
  cases p <;> exact Eq.trans htu hst

theorem changesOnly_drawn (s : State) : ChangesOnly (fun p => p = .rngDraws) s s.drawn := by
  intro p hp
  cases p
  case rngDraws => exact absurd rfl hp
  all_goals rfl

theorem changesOnly_withStack (s : State) (l : List Word) :
    ChangesOnly (fun p => p = .stack) s { s with stack := l } := by
  intro p hp
  cases p
  case stack => exact absurd rfl hp
  all_goals rfl

theorem changesOnly_withStack_setPc (s : State) (l : List Word) (a : Word) :
    ChangesOnly (fun p => p = .pc ∨ p = .stack) s (({ s with stack := l } : State).setPc a) :=
  ((changesOnly_withStack s l).mono fun _ => .inr).trans ((changesOnly_setPc _ a).mono fun _ => .inl)

theorem changesOnly_drawn_writeV (s : State) (x : Reg) (b : Byte) :
    ChangesOnly (fun p => p = .v x ∨ p = .rngDraws) s (s.drawn.writeV x b) :=
  ((changesOnly_drawn s).mono fun _ => .inr).trans ((changesOnly_writeV _ x b).mono fun _ => .inl)

theorem changesOnly_drawSprite (s : State) (vx vy : Byte) (rows : List Byte) :
    ChangesOnly (fun p => anyPixel p ∨ p = .v vf) s (s.drawSprite vx vy rows) :=
  ((changesOnly_writeV s vf _).mono fun _ => .inr).trans ((changesOnly_setFb _ _).mono fun _ => .inl)

/-- A store that does not raise changes the bytes it names: they are all in memory (20_memory.md R56). -/
theorem changesOnly_of_memWrite {s t : State} {addr : Word} {bs : List Byte} (hm : Memory.wf s.mem)
    (h : s.memWrite addr bs = .ok t) : ChangesOnly (memoryRange addr.toNat bs.length) s t := by
  rw [State.memWrite_eq_ok h]
  cases bs with
  | nil => exact ChangesOnly.refl s
  | cons b bs =>
    obtain ⟨hl, -⟩ | ⟨-, e⟩ | ⟨-, -, -, e⟩ := State.memWrite_cases s addr (b :: bs) (by simp)
    · exact changesOnly_writeBytes s hm _ _ hl
    · cases e.symm.trans h
    · cases e.symm.trans h

/-! ### The cause each access raises -/

theorem State.memRead_eq_ok {s : State} {addr : Word} {n : Nat} {bs : List Byte} (h : s.memRead addr n = .ok bs) :
    bs = Memory.readBytes s.mem addr.toNat n := by
  obtain ⟨-, e⟩ | ⟨-, -, e⟩ := State.memRead_cases s addr n <;> rw [e] at h
  · exact (Except.ok.inj h).symm
  · cases h

theorem State.memRead_eq_error {s : State} {addr : Word} {n : Nat} {c : Cause} (h : s.memRead addr n = .error c) :
    0 < n ∧ 4096 < addr.toNat + n ∧ (.dataOutOfRange, .addr addr) = c := by
  obtain ⟨-, e⟩ | ⟨hn, hl, e⟩ := State.memRead_cases s addr n <;> rw [e] at h
  · cases h
  · exact ⟨hn, hl, Except.error.inj h⟩

/-- The cause of a store that raises, in the order of 20_memory.md R56; `past` is any form of "the last byte is past
the end of memory". -/
theorem State.memWrite_eq_error {s : State} {addr : Word} {bs : List Byte} {c : Cause} {past : Prop} [Decidable past]
    (hpast : past ↔ 4096 < addr.toNat + bs.length) (h : s.memWrite addr bs = .error c) :
    (if past then some (.dataOutOfRange, .addr addr)
      else if s.cfg.reservedWrite = .fault ∧ addr.toNat ≤ 0x1FF then some (.reservedWrite, .addr addr)
      else none) = some c := by
  cases bs with
  | nil => cases h
  | cons b bs =>
    obtain ⟨-, -, e⟩ | ⟨hl, e⟩ | ⟨hl, hp, ha, e⟩ := State.memWrite_cases s addr (b :: bs) (by simp) <;> rw [e] at h
    · cases h
    · rw [if_pos (hpast.2 hl), Except.error.inj h]
    · rw [if_neg (mt hpast.1 (Nat.not_lt.2 hl)), if_pos ⟨hp, ha⟩, Except.error.inj h]

theorem State.push_eq_error {s : State} {a : Word} {c : Cause} (h : s.push a = .error c) :
    s.cfg.stackLimit = some s.stack.length ∧ (.stackOverflow, .none) = c := by
  obtain ⟨-, e⟩ | ⟨hl, e⟩ := State.push_cases s a <;> rw [e] at h
  · cases h
  · exact ⟨hl, Except.error.inj h⟩

theorem State.pop_eq_error {s : State} {c : Cause} (h : s.pop = .error c) :
    s.stack = [] ∧ (.stackUnderflow, .none) = c := by
  obtain ⟨hs, e⟩ | ⟨r, rest, -, e⟩ := State.pop_cases s <;> rw [e] at h
  · exact ⟨hs, Except.error.inj h⟩
  · cases h

theorem keyOperand_eq_error {b : Byte} {c : Cause} (h : keyOperand b = .error c) :
    15 < b.toNat ∧ (.keyIndexOutOfRange, .key b) = c := by
  obtain ⟨_, e⟩ | ⟨hb, e⟩ := keyOperand_cases b <;> rw [e] at h
  · cases h
  · exact ⟨hb, Except.error.inj h⟩

/-! ### Own parts, or the fault -/

/-- From `s`, the instruction `i` completed in `t` and wrote only its own parts, or took the table's fault. -/
def WritesOwnPartsOrFaults (i : Instr) (s t : State) : Prop :=
  ChangesOnly (InstrWrites i s) s t ∨
    ∃ c, instrRaises i s = some c ∧ FaultTaken s t (s.pc - 2) (some (encode i)) c.1 c.2

section
variable {i : Instr} {s : State}

theorem answers_ownParts {t : State} (h : ChangesOnly (InstrWrites i s) s t) :
    Answers (.next t) (WritesOwnPartsOrFaults i s) := answers_next (.inl h)

/-- A commit whose access raises the table's cause where it raises. -/
theorem commit_ownPartsOrFaults {r : Except Cause State} (hok : ∀ t, r = .ok t → ChangesOnly (InstrWrites i s) s t)
    (herr : ∀ c, r = .error c → instrRaises i s = some c) :
    Answers (s.commit i r) (WritesOwnPartsOrFaults i s) := by
  obtain ⟨t, ht, e⟩ | ⟨c, hc, e⟩ := State.commit_cases i s r
  · exact ⟨t, e, .inl (hok t ht)⟩
  · exact ⟨_, e, .inr ⟨c, herr c hc, takeFault_faultTaken s _ _ c⟩⟩

theorem commit_map_ownPartsOrFaults {α : Type} {r : Except Cause α} {f : α → State}
    (hok : ∀ a, r = .ok a → ChangesOnly (InstrWrites i s) s (f a))
    (herr : ∀ c, r = .error c → instrRaises i s = some c) :
    Answers (s.commit i (r.map f)) (WritesOwnPartsOrFaults i s) := by
  cases r with
  | ok a => exact answers_ownParts (hok a rfl)
  | error c => exact commit_ownPartsOrFaults (fun _ ht => nomatch ht) fun _ hc => Except.error.inj hc ▸ herr c rfl

end

/-! ### The instructions that may raise, and the key wait -/

theorem execRet_ownPartsOrFaults (s : State) : Answers (execRet s) (WritesOwnPartsOrFaults .ret s) := by
  refine commit_map_ownPartsOrFaults (fun p hp => ?_) fun c hc => ?_
  · rw [(State.pop_eq_ok hp).2]
    exact changesOnly_withStack_setPc s _ _
  · obtain ⟨hs, rfl⟩ := State.pop_eq_error hc
    exact if_pos hs

theorem execCall_ownPartsOrFaults (nnn : BitVec 12) (s : State) :
    Answers (execCall nnn s) (WritesOwnPartsOrFaults (.call nnn) s) := by
  refine commit_map_ownPartsOrFaults (fun t ht => ?_) fun c hc => ?_
  · rw [State.push_eq_ok ht]
    exact changesOnly_withStack_setPc s _ _
  · obtain ⟨hl, rfl⟩ := State.push_eq_error hc
    exact if_pos hl

theorem execDrw_ownPartsOrFaults (x y : Reg) (n : BitVec 4) (s : State) :
    Answers (execDrw x y n s) (WritesOwnPartsOrFaults (.drw x y n) s) := by
  refine commit_map_ownPartsOrFaults (fun rows _ => changesOnly_drawSprite s _ _ rows) fun c hc => ?_
  obtain ⟨hn, hl, rfl⟩ := State.memRead_eq_error hc
  exact if_pos (by omega)

theorem execLdVMem_ownPartsOrFaults (x : Reg) (s : State) :
    Answers (execLdVMem x s) (WritesOwnPartsOrFaults (.ldVMem x) s) := by
  refine commit_map_ownPartsOrFaults (fun bs hbs => ?_) fun c hc => ?_
  · have hlen : bs.length = x.val + 1 := by rw [State.memRead_eq_ok hbs, Memory.length_readBytes]
    refine (changesOnly_writeFirst s bs).mono ?_
    rintro p ⟨k, hk, rfl⟩
    exact ⟨k, Fin.le_def.2 (by omega), rfl⟩
  · obtain ⟨-, hl, rfl⟩ := State.memRead_eq_error hc
    exact if_pos (by omega)

theorem execLdB_ownPartsOrFaults (x : Reg) (s : State) (hm : Memory.wf s.mem) :
    Answers (execLdB x s) (WritesOwnPartsOrFaults (.ldB x) s) :=
  commit_ownPartsOrFaults (fun _ ht => changesOnly_of_memWrite hm ht)
    fun _ hc => State.memWrite_eq_error (by rw [length_bcdDigits]; omega) hc

theorem execLdMemV_ownPartsOrFaults (x : Reg) (s : State) (hm : Memory.wf s.mem) :
    Answers (execLdMemV x s) (WritesOwnPartsOrFaults (.ldMemV x) s) := by
  have hlen : (s.registersUpTo x).length = x.val + 1 := s.length_registersUpTo x
  refine commit_ownPartsOrFaults (fun t ht => ?_) fun c hc => State.memWrite_eq_error (by omega) hc
  have hframe : ChangesOnly (memoryRange s.i.toNat (s.registersUpTo x).length) s t := changesOnly_of_memWrite hm ht
  rwa [hlen] at hframe

/-- A key skip's cause is the table's, whichever way it tests the latch. -/
theorem skipRaises_of_keyOperand {s : State} {x : Reg} {c : Cause} (hc : keyOperand (s.readV x) = .error c) :
    instrRaises (.skp x) s = some c ∧ instrRaises (.sknp x) s = some c := by
  obtain ⟨hb, rfl⟩ := keyOperand_eq_error hc
  exact ⟨if_pos hb, if_pos hb⟩

theorem execLdVxK_ownPartsOrFaults (x : Reg) (s : State) :
    Answers (execLdVxK x s) (WritesOwnPartsOrFaults (.ldVxK x) s) := by
  unfold execLdVxK
  split
  · exact answers_ownParts ((changesOnly_writeV s x _).mono fun _ => .inl)
  · exact answers_ownParts ((changesOnly_setPc s _).mono fun _ => .inr)

/-- Every instruction writes only its own parts, or takes the table's fault. -/
theorem exec_ownPartsOrFaults (i : Instr) (s : State) (hm : Memory.wf s.mem) :
    Answers (exec i s) (WritesOwnPartsOrFaults i s) := by
  cases i with
  | cls => exact answers_ownParts (changesOnly_setFb s _)
  | ret => exact execRet_ownPartsOrFaults s
  | call nnn => exact execCall_ownPartsOrFaults nnn s
  | jp | jpV0 => exact answers_ownParts (changesOnly_setPc s _)
  | seImm | sneImm | seReg | sneReg => exact answers_ownParts (changesOnly_skipIf s _)
  | ldImm | addImm | ldReg | orReg | andReg | xorReg | ldVxDt => exact answers_ownParts (changesOnly_writeV s _ _)
  | addReg | sub | shr | subn | shl => exact answers_ownParts (changesOnly_writeFlagThenValue s _ _ _)
  | rnd => exact answers_ownParts (changesOnly_drawn_writeV s _ _)
  | ldI | addI | ldF => exact answers_ownParts (changesOnly_setI s _)
  | ldDt => exact answers_ownParts (changesOnly_setDt s _)
  | ldSt => exact answers_ownParts (changesOnly_setSt s _)
  | drw x y n => exact execDrw_ownPartsOrFaults x y n s
  | skp =>
    exact commit_map_ownPartsOrFaults (fun _ _ => changesOnly_skipIf s _) fun _ hc => (skipRaises_of_keyOperand hc).1
  | sknp =>
    exact commit_map_ownPartsOrFaults (fun _ _ => changesOnly_skipIf s _) fun _ hc => (skipRaises_of_keyOperand hc).2
  | ldVxK x => exact execLdVxK_ownPartsOrFaults x s
  | ldB x => exact execLdB_ownPartsOrFaults x s hm
  | ldMemV x => exact execLdMemV_ownPartsOrFaults x s hm
  | ldVMem x => exact execLdVMem_ownPartsOrFaults x s

/-- Settles O57: every instruction completes in an operation whose frame is the instruction's own parts, and an access
that raises does so with the table's cause, from the state the instruction started in. -/
theorem instructionsWriteOnlyTheirParts : Obligations.InstructionsWriteOnlyTheirParts :=
  fun i s hm => exec_ownPartsOrFaults i s hm

end Sys2Proof.Machine
end

section
/-!
SUPPORT. Decode and encode are inverse to each other (30_encoding.md R81, R85, R86): decoding an encoded instruction
reads back the packed fields, and packing the fields of a word gives the word back.
-/

namespace Sys2Proof

/-! ### Decoding an encoded instruction -/

theorem decode_encode (i : Instr) : decode (encode i) = some i := by
  cases i with
  | cls | ret => rfl
  | jp | call | ldI | jpV0 => simp [encode, decode]
  | seImm | sneImm | ldImm | addImm | rnd => simp [encode, decode]
  | seReg | sneReg | drw => simp [encode, decode]
  | ldReg | orReg | andReg | xorReg | addReg | sub | shr | subn | shl => simp [encode, decode, decodeFamily8]
  | skp | sknp => simp [encode, decode, decodeFamilyE]
  | ldVxDt | ldVxK | ldDt | ldSt | addI | ldF | ldB | ldMemV | ldVMem => simp [encode, decode, decodeFamilyF]

theorem decodeBytes_encodeBytes_append (i : Instr) (rest : List Byte) :
    decodeBytes (encodeBytes i ++ rest) = .ok (i, rest) := by
  simp [encodeBytes, decodeBytes, decode_encode]

/-- Settles O1: the fields of a packed word are what was packed, and the two bytes of a word give the word back. -/
theorem encodeThenDecodeGivesInstruction : Obligations.EncodeThenDecodeGivesInstruction :=
  fun i rest => ⟨decode_encode i, decodeBytes_encodeBytes_append i rest⟩

/-- Settles O5: each of the words is the encoding of its instruction. -/
theorem sampleWordsDecode : Obligations.SampleWordsDecode :=
  ⟨decode_encode (.call 0x210), decode_encode (.shr 4 5), decode_encode (.drw 0 1 5), decode_encode (.sknp 1),
    decode_encode (.ldMemV 2), decode_encode (.ldI 0x2F0)⟩

/-! ### Packing the fields of a word -/

@[simp] theorem regBits_toFin (b : BitVec 4) : regBits b.toFin = b := by
  simp [regBits]

section
variable {w : Word} {f : BitVec 4}

theorem packNNN_eq {nnn : BitVec 12} (hF : fieldF w = f) (hNNN : fieldNNN w = nnn) : packNNN f nnn = w := by
  subst hF hNNN
  exact BitVec.extractLsb'_append_extractLsb'

theorem packXNN_eq {x : Reg} {nn : Byte} (hF : fieldF w = f) (hX : fieldX w = x) (hNN : fieldNN w = nn) :
    packXNN f x nn = w := by
  subst hF hX hNN
  rw [packXNN, fieldX, regBits_toFin, fieldF, fieldNN, BitVec.extractLsb'_append_extractLsb'_eq_extractLsb' (by rfl)]
  exact BitVec.extractLsb'_append_extractLsb'

theorem packXYN_eq {x y : Reg} {n : BitVec 4} (hF : fieldF w = f) (hX : fieldX w = x) (hY : fieldY w = y)
    (hN : fieldN w = n) : packXYN f x y n = w := by
  subst hF hX hY hN
  rw [packXYN, fieldX, fieldY, regBits_toFin, regBits_toFin, fieldF, fieldN,
    BitVec.extractLsb'_append_extractLsb'_eq_extractLsb' (by rfl),
    BitVec.extractLsb'_append_extractLsb'_eq_extractLsb' (by rfl)]
  exact BitVec.extractLsb'_append_extractLsb'

end

/-! ### Encoding a decoded instruction -/

/-- A nibble has sixteen values: the decoder's last branch is family 0xF. -/
theorem nibble_cases (f : BitVec 4) :
    f = 0x0 ∨ f = 0x1 ∨ f = 0x2 ∨ f = 0x3 ∨ f = 0x4 ∨ f = 0x5 ∨ f = 0x6 ∨ f = 0x7 ∨ f = 0x8 ∨ f = 0x9 ∨ f = 0xA ∨
      f = 0xB ∨ f = 0xC ∨ f = 0xD ∨ f = 0xE ∨ f = 0xF := by
  decide +revert

section
variable {w : Word} {i : Instr}

theorem encode_of_decodeFamily0 (h : decodeFamily0 w = some i) : encode i = w := by
  unfold decodeFamily0 at h
  split at h
  case isTrue hw => cases h; exact hw.symm
  case isFalse =>
    split at h
    case isTrue hw => cases h; exact hw.symm
    case isFalse => cases h

theorem encode_of_decodeFamily8 (hF : fieldF w = 0x8) (h : decodeFamily8 w = some i) : encode i = w := by
  unfold decodeFamily8 at h
  split at h <;> cases h <;> exact packXYN_eq hF rfl rfl ‹_›

theorem encode_of_decodeFamilyE (hF : fieldF w = 0xE) (h : decodeFamilyE w = some i) : encode i = w := by
  unfold decodeFamilyE at h
  split at h <;> cases h <;> exact packXNN_eq hF rfl ‹_›

theorem encode_of_decodeFamilyF (hF : fieldF w = 0xF) (h : decodeFamilyF w = some i) : encode i = w := by
  unfold decodeFamilyF at h
  split at h <;> cases h <;> exact packXNN_eq hF rfl ‹_›

/-- The branches of the decoder, by the shape of the family's words; branch `h_k` is family k - 1. -/
theorem encode_of_decode (h : decode w = some i) : encode i = w := by
  unfold decode at h
  split at h
  case h_1 => exact encode_of_decodeFamily0 h
  case h_2 hF | h_3 hF | h_11 hF | h_12 hF => cases h; exact packNNN_eq hF rfl
  case h_4 hF | h_5 hF | h_7 hF | h_8 hF | h_13 hF => cases h; exact packXNN_eq hF rfl rfl
  case h_6 hF | h_10 hF =>
    split at h
    case isTrue hN => cases h; exact packXYN_eq hF rfl rfl hN
    case isFalse => cases h
  case h_9 hF => exact encode_of_decodeFamily8 hF h
  case h_14 hF => cases h; exact packXYN_eq hF rfl rfl rfl
  case h_15 hF => exact encode_of_decodeFamilyE hF h
  case h_16 =>
    have hF : fieldF w = 0xF := by have := nibble_cases (fieldF w); tauto
    exact encode_of_decodeFamilyF hF h

end

/-- Settles O2: every branch of the decoder keeps the fields that make up the word. -/
theorem decodeThenEncodeGivesWord : Obligations.DecodeThenEncodeGivesWord :=
  fun _ _ h => encode_of_decode h

end Sys2Proof
end

section
/-!
SUPPORT. The words the decoder accepts: those of the list of 30_encoding.md R86, and those a row of the opcode table
selects.
-/

namespace Sys2Proof

open Machine

/-! ### The decoder and the list of legal words -/

theorem isSome_decodeFamily0 (w : Word) : (decodeFamily0 w).isSome = (w.toNat == 0x00E0 || w.toNat == 0x00EE) := by
  unfold decodeFamily0
  split
  case isTrue hw => simp [hw]
  case isFalse hw => split <;> simp_all [BitVec.toNat_eq]

theorem isSome_decodeFamily8 (w : Word) : (decodeFamily8 w).isSome =
    decide ((fieldN w).toNat ∈ [0x0, 0x1, 0x2, 0x3, 0x4, 0x5, 0x6, 0x7, 0xE]) := by
  unfold decodeFamily8
  split <;> simp_all [BitVec.toNat_eq]

theorem isSome_decodeFamilyE (w : Word) : (decodeFamilyE w).isSome =
    decide ((fieldNN w).toNat ∈ [0x9E, 0xA1]) := by
  unfold decodeFamilyE
  split <;> simp_all [BitVec.toNat_eq]

theorem isSome_decodeFamilyF (w : Word) : (decodeFamilyF w).isSome =
    decide ((fieldNN w).toNat ∈ [0x07, 0x0A, 0x15, 0x18, 0x1E, 0x29, 0x33, 0x55, 0x65]) := by
  unfold decodeFamilyF
  split <;> simp_all [BitVec.toNat_eq]

/-- Families 0, 5, 8, 9, E and F refuse some words, the others none; branch `h_k` of the decoder is family k - 1. -/
theorem isSome_decode (w : Word) : (decode w).isSome = legalByFamily w := by
  unfold decode
  split
  case h_1 hF => rw [isSome_decodeFamily0]; simp [legalByFamily, hF]
  case h_6 hF | h_10 hF => split <;> simp_all [legalByFamily, BitVec.toNat_eq]
  case h_9 hF => rw [isSome_decodeFamily8]; simp [legalByFamily, hF]
  case h_15 hF => rw [isSome_decodeFamilyE]; simp [legalByFamily, hF]
  case h_16 =>
    have hF : fieldF w = 0xF := by have := nibble_cases (fieldF w); tauto
    rw [isSome_decodeFamilyF]
    simp [legalByFamily, hF]
  case h_2 hF | h_3 hF | h_4 hF | h_5 hF | h_7 hF | h_8 hF | h_11 hF | h_12 hF | h_13 hF | h_14 hF =>
    simp [legalByFamily, hF]

/-! ### The opcode table selects the encoded instructions -/

section
open Laws.InRow

theorem row_selects_encode (i : Instr) : Statement i := by
  cases i
  exacts [cls, ret, jp _, call _, seImm _ _, sneImm _ _, seReg _ _, ldImm _ _, addImm _ _, ldReg _ _, orReg _ _,
    andReg _ _, xorReg _ _, addReg _ _, sub _ _, shr _ _, subn _ _, shl _ _, sneReg _ _, ldI _, jpV0 _, rnd _ _,
    drw _ _ _, skp _, sknp _, ldVxDt _, ldVxK _, ldDt _, ldSt _, addI _, ldF _, ldB _, ldMemV _, ldVMem _]

theorem legalWord_encode (i : Instr) : legalWord (encode i) = true := by
  obtain ⟨r, hr, hselects⟩ := Option.map_eq_some_iff.1 (row_selects_encode i)
  exact List.any_eq_true.2 ⟨r, List.mem_of_getElem? hr, hselects⟩

end

/-! ### The opcode table selects nothing but legal words -/

/-- Legality depends on the family and on the field that R86 looks at in that family: the whole word, n or nn. -/
theorem legalByFamily_congr {w p : Word} (hF : fieldF w = fieldF p) (hword : fieldF p = 0x0 → w = p)
    (hN : fieldF p ∈ [0x5, 0x8, 0x9] → fieldN w = fieldN p) (hNN : fieldF p ∈ [0xE, 0xF] → fieldNN w = fieldNN p) :
    legalByFamily w = legalByFamily p := by
  simp only [legalByFamily, hF]
  split
  case h_1 h => rw [hword (BitVec.eq_of_toNat_eq h)]
  case h_2 h | h_3 h | h_4 h => rw [hN (by simp [BitVec.toNat_eq, h])]
  case h_5 h | h_6 h => rw [hNN (by simp [BitVec.toNat_eq, h])]
  case h_7 => rfl

/-- The mask of every row keeps the family and the field that R86 looks at in it, and the row's pattern is legal. -/
theorem opcodeRows_legal : ∀ r ∈ opcodeRows, fieldF r.mask = BitVec.allOnes 4 ∧
    (fieldF r.pattern = 0x0 → r.mask = BitVec.allOnes 16) ∧
    (fieldF r.pattern ∈ [0x5, 0x8, 0x9] → fieldN r.mask = BitVec.allOnes 4) ∧
    (fieldF r.pattern ∈ [0xE, 0xF] → fieldNN r.mask = BitVec.allOnes 8) ∧ legalByFamily r.pattern = true := by
  decide

theorem extractLsb'_and_of_allOnes {w m : Word} {start len : Nat} (hm : m.extractLsb' start len = BitVec.allOnes len) :
    (w &&& m).extractLsb' start len = w.extractLsb' start len := by
  rw [BitVec.extractLsb'_and, hm, BitVec.and_allOnes]

theorem legalByFamily_of_selects {r : OpcodeRow} {w : Word} (hr : r ∈ opcodeRows) (hselects : r.selects w = true) :
    legalByFamily w = true := by
  obtain ⟨hF, hword, hN, hNN, hlegal⟩ := opcodeRows_legal r hr
  have hp : w &&& r.mask = r.pattern := beq_iff_eq.1 hselects
  rw [← hlegal]
  refine legalByFamily_congr ?_ (fun h => ?_) (fun h => ?_) (fun h => ?_) <;> rw [← hp]
  · exact (extractLsb'_and_of_allOnes hF).symm
  · rw [hword h, BitVec.and_allOnes]
  · exact (extractLsb'_and_of_allOnes (hN h)).symm
  · exact (extractLsb'_and_of_allOnes (hNN h)).symm

theorem legalByFamily_of_legalWord {w : Word} (h : legalWord w = true) : legalByFamily w = true := by
  obtain ⟨r, hr, hselects⟩ := List.any_eq_true.1 h
  exact legalByFamily_of_selects hr hselects

theorem legalByFamily_eq_legalWord (w : Word) : legalByFamily w = legalWord w := by
  refine Bool.eq_iff_iff.2 ⟨fun h => ?_, legalByFamily_of_legalWord⟩
  obtain ⟨i, hi⟩ := Option.isSome_iff_exists.1 ((isSome_decode w).trans h)
  exact encode_of_decode hi ▸ legalWord_encode i

/-- Settles O3: a decoded word is the encoding of its instruction, which the instruction's row selects; and every row
selects legal words only. -/
theorem decodeAcceptsExactlyTheOpcodeMap : Obligations.DecodeAcceptsExactlyTheOpcodeMap :=
  fun w => ⟨isSome_decode w, legalByFamily_eq_legalWord w⟩

end Sys2Proof
end

section
/-!
SUPPORT. A step of a running machine whose word decodes (30_encoding.md R93 to R97).
-/

namespace Sys2Proof.Machine

/-- Settles O7: the two bytes at PC are the fetched word, and the step of a fetched word that decodes is the execute
stage at the provisional PC. -/
theorem stepRunsDecodedInstruction : Obligations.StepRunsDecodedInstruction :=
  fun _ _ hrunning hpc hdecode => step_eq_exec hrunning (State.fetch_eq_some hpc) hdecode

end Sys2Proof.Machine
end

section
/-!
SUPPORT. The faults a running machine takes before execute: FetchOutOfRange above 0xFFE, and IllegalInstruction on a
word outside the opcode map (60_exceptions.md R222, R223).
-/

namespace Sys2Proof.Machine

theorem step_fetchOutOfRange {s : State} {a : Word} (hrunning : s.halted = false) (hpc : s.pc = a)
    (ha : 0xFFE < a.toNat) : Answers (step s) fun t => FaultTaken s t a none .fetchOutOfRange (.addr a) := by
  subst hpc
  have hfront : s.front = .error (s.takeFault s.pc none (.fetchOutOfRange, .addr s.pc)) := by
    simp [State.front, hrunning, State.fetch_eq_none.2 ha]
  exact ⟨_, step_eq_next_of_front_error hfront, takeFault_faultTaken s _ _ _⟩

theorem decode_eq_none_of_illegal {w : Word} (h : legalByFamily w = false) : decode w = none := by
  rw [← Option.not_isSome_iff_eq_none, isSome_decode, h]
  decide

theorem step_illegalInstruction {s : State} {w : Word} (hrunning : s.halted = false) (hfetch : s.fetch = some w)
    (hillegal : legalByFamily w = false) :
    Answers (step s) fun t => FaultTaken s t s.pc (some w) .illegalInstruction (.word w) := by
  have hfront : s.front = .error (s.takeFault s.pc (some w) (.illegalInstruction, .word w)) := by
    simp [State.front, hrunning, hfetch, decode_eq_none_of_illegal hillegal]
  exact ⟨_, step_eq_next_of_front_error hfront, takeFault_faultTaken s _ _ _⟩

end Sys2Proof.Machine
end

section
/-!
SUPPORT. Control transfer (41_control.md), in the execute stage, where PC is a + 2: the words of the instructions, their
targets, the skip, and the two outcomes of RET and of CALL.
-/

namespace Sys2Proof.Machine

/-! ### Words, targets and PC -/

theorem encodedAs_encode (i : Instr) : EncodedAs (encode i) i := ⟨decode_encode i, rfl⟩

@[simp] theorem toNat_addressOperand (nnn : BitVec 12) : (addressOperand nnn).toNat = nnn.toNat :=
  BitVec.toNat_setWidth_of_le (by decide)

/-- The sum of a 12-bit address and a byte fits in PC, so that Bnnn never wraps (41_control.md R107). -/
theorem toNat_offsetTarget (nnn : BitVec 12) (b : Byte) : (offsetTarget nnn b).toNat = nnn.toNat + b.toNat := by
  simp only [offsetTarget, addressOperand, wordOf, BitVec.toNat_add, BitVec.toNat_setWidth]
  omega

@[simp] theorem State.setPc_setPc (s : State) (a b : Word) : (s.setPc a).setPc b = s.setPc b := rfl

@[simp] theorem State.setPc_pc_self (s : State) : s.setPc s.pc = s := rfl

/-- A skip moves the provisional PC over one word exactly when its condition holds (41_control.md R108). -/
theorem State.skipIf_pc_eq_ite (s : State) {taken : Bool} {p : Prop} [Decidable p] (h : taken = true ↔ p) :
    (s.skipIf taken).pc = if p then s.pc + 2 else s.pc := by
  unfold State.skipIf
  by_cases hp : p
  · rw [if_pos (h.2 hp), if_pos hp, State.setPc_pc]
  · rw [if_neg (mt h.1 hp), if_neg hp]

/-! ### RET -/

theorem execRet_of_stack_eq_concat {s : State} {rest : List Word} {r : Word} (hs : s.stack = rest ++ [r]) :
    execRet s = .next (({ s with stack := rest } : State).setPc r) := by
  obtain ⟨hnil, -⟩ | ⟨r', rest', hs', e⟩ := State.pop_cases s
  · simp [hs] at hnil
  · obtain ⟨rfl, hr⟩ := List.append_inj' (hs.symm.trans hs') rfl
    cases hr
    rw [execRet, e]
    rfl

theorem execRet_of_stack_eq_nil {s : State} (hs : s.stack = []) :
    execRet s = .next (s.takeFault (s.pc - 2) (some 0x00EE) (.stackUnderflow, .none)) := by
  obtain ⟨-, e⟩ | ⟨r, rest, hs', -⟩ := State.pop_cases s
  · rw [execRet, e]
    rfl
  · simp [hs] at hs'

/-- Settles O22: RET commits the popped state or takes the fault, by the two cases of the stack; the step after a popped
0x1000 finds PC above 0xFFE. -/
theorem returnPopsTheTopEntry : Obligations.ReturnPopsTheTopEntry := by
  refine ⟨encodedAs_encode .ret, fun s rest r hs => ?_, fun s hs => ?_⟩
  · refine ⟨_, execRet_of_stack_eq_concat hs, rfl, rfl, changesOnly_withStack_setPc s rest r, ?_⟩
    exact fun hrunning hr => step_fetchOutOfRange hrunning hr (by decide)
  · exact ⟨_, execRet_of_stack_eq_nil hs, takeFault_faultTaken s _ _ _⟩

/-! ### CALL -/

theorem execCall_of_room {s : State} (nnn : BitVec 12) (hroom : s.cfg.stackLimit ≠ some s.stack.length) :
    execCall nnn s = .next (({ s with stack := s.stack ++ [s.pc] } : State).setPc (addressOperand nnn)) := by
  obtain ⟨-, e⟩ | ⟨hfull, -⟩ := State.push_cases s s.pc
  · rw [execCall, e]
    rfl
  · exact absurd hfull hroom

theorem execCall_of_full {s : State} (nnn : BitVec 12) (hfull : s.cfg.stackLimit = some s.stack.length) :
    execCall nnn s = .next (s.takeFault (s.pc - 2) (some (0x2#4 ++ nnn)) (.stackOverflow, .none)) := by
  obtain ⟨hroom, -⟩ | ⟨-, e⟩ := State.push_cases s s.pc
  · exact absurd hfull hroom
  · rw [execCall, e]
    rfl

/-- Settles O24: CALL commits the pushed state or takes the fault, by the two sides of the test for STACK_LIMIT. -/
theorem callPushesTheReturnAddress : Obligations.CallPushesTheReturnAddress := by
  refine fun nnn => ⟨encodedAs_encode (.call nnn), fun s => ⟨fun hroom => ?_, fun hfull => ?_⟩⟩
  · exact ⟨_, execCall_of_room nnn hroom, rfl, toNat_addressOperand nnn, changesOnly_withStack_setPc s _ _⟩
  · exact ⟨_, execCall_of_full nnn hfull, takeFault_faultTaken s _ _ _⟩

/-! ### JP -/

/-- The jump puts the provisional PC back where the step began. -/
theorem step_jp_self {s : State} {nnn : BitVec 12} (hrunning : s.halted = false) (hpc : s.pc = addressOperand nnn)
    (hfetch : s.fetch = some (encode (.jp nnn))) : step s = .next s := by
  calc step s = exec (.jp nnn) s.provisional := step_eq_exec hrunning hfetch (decode_encode _)
    _ = .next ((s.setPc (s.pc + 2)).setPc (addressOperand nnn)) := rfl
    _ = .next s := by rw [← hpc, State.setPc_setPc, State.setPc_pc_self]

/-- Settles O23: the target does not depend on PC, so a jump to its own address undoes the provisional PC; the step
after a jump to 0xFFF finds PC above 0xFFE. -/
theorem jumpGoesToTheAddress : Obligations.JumpGoesToTheAddress := by
  refine fun nnn => ⟨encodedAs_encode (.jp nnn), fun s => ?_, fun s hrunning hpc hfetch => ?_⟩
  · refine ⟨_, rfl, toNat_addressOperand nnn, changesOnly_setPc s _, ?_⟩
    rintro hrunning rfl
    exact step_fetchOutOfRange hrunning rfl (by decide)
  · exact step_jp_self hrunning hpc hfetch

/-- Settles O27: the sum fits in PC. -/
theorem jumpWithOffsetKeepsTheSumWhole : Obligations.JumpWithOffsetKeepsTheSumWhole :=
  fun nnn => ⟨encodedAs_encode (.jpV0 nnn), fun s =>
    ⟨_, rfl, toNat_offsetTarget nnn _, offsetTarget_le nnn _, changesOnly_setPc s _⟩⟩

/-! ### The skips -/

/-- Settles O25: both are the one skip, on equality and on its complement. -/
theorem skipsOnImmediate : Obligations.SkipsOnImmediate :=
  fun x nn => ⟨encodedAs_encode (.seImm x nn), encodedAs_encode (.sneImm x nn), fun s =>
    ⟨_, _, rfl, rfl, s.skipIf_pc_eq_ite beq_iff_eq, s.skipIf_pc_eq_ite bne_iff_ne, changesOnly_skipIf s _,
      changesOnly_skipIf s _⟩⟩

/-- Families 5 and 9 hold no legal word but those with a zero low nibble (30_encoding.md R86). -/
theorem legalByFamily_packXYN_of_ne_zero {f n : BitVec 4} (hf : f = 0x5 ∨ f = 0x9) (hn : n ≠ 0) (x y : Reg) :
    legalByFamily (packXYN f x y n) = false := by
  have hn' : n.toNat ≠ 0 := fun h => hn (BitVec.eq_of_toNat_eq h)
  obtain rfl | rfl := hf <;> simp [legalByFamily, hn']

/-- Settles O26: both are the one skip, on equality and on its complement; a nonzero low nibble is refused by the
decoder. -/
theorem skipsOnRegister : Obligations.SkipsOnRegister := by
  refine fun x y => ⟨encodedAs_encode (.seReg x y), encodedAs_encode (.sneReg x y),
    fun f n s hf hn hrunning hfetch => ?_, fun s => ?_⟩
  · rw [hfetch]
    exact step_illegalInstruction hrunning hfetch (legalByFamily_packXYN_of_ne_zero hf hn x y)
  · have hse : (s.skipIf (s.readV x == s.readV y)).pc = if s.readV x = s.readV y then s.pc + 2 else s.pc :=
      s.skipIf_pc_eq_ite beq_iff_eq
    have hsne : (s.skipIf (s.readV x != s.readV y)).pc = if s.readV x ≠ s.readV y then s.pc + 2 else s.pc :=
      s.skipIf_pc_eq_ite bne_iff_ne
    refine ⟨_, _, rfl, rfl, hse, hsne, ?_, changesOnly_skipIf s _, changesOnly_skipIf s _⟩
    rintro rfl
    exact ⟨hse.trans (if_pos rfl), hsne.trans (if_neg (not_not.2 rfl))⟩

end Sys2Proof.Machine
end

section
/-!
SUPPORT. Register loads, arithmetic, logic, shifts and random (42_register_alu.md): what the two register writes leave in
Vx and in VF, and each value and flag as numbers or bit by bit.
-/

namespace Sys2Proof.Machine

/-! ### The register writes -/

theorem State.readV_writeV_self (s : State) (x : Reg) (b : Byte) : (s.writeV x b).readV x = b := by
  rw [State.readV_writeV, if_pos rfl]

/-- The value is written last, so that it stays also where x = F (42_register_alu.md R132). -/
theorem State.readV_writeFlagThenValue_self (s : State) (x : Reg) (flag value : Byte) :
    (s.writeFlagThenValue x flag value).readV x = value := State.readV_writeV_self _ x value

theorem State.readV_writeFlagThenValue_vf (s : State) {x : Reg} (hx : x ≠ vf) (flag value : Byte) :
    (s.writeFlagThenValue x flag value).readV vf = flag := by
  rw [State.writeFlagThenValue, State.readV_writeV, if_neg hx.symm, State.readV_writeV_self]

/-! ### Values and flags -/

theorem toNat_sub_eq_emod (a b : Byte) : ((a - b).toNat : Int) = ((a.toNat : Int) - b.toNat) % 256 := by
  rw [BitVec.toNat_sub]
  omega

theorem toNat_shiftLeft_one (b : Byte) : (b <<< 1).toNat = b.toNat * 2 % 256 := by
  rw [BitVec.toNat_shiftLeft, Nat.shiftLeft_eq]

theorem flagByte_decide (p : Prop) [Decidable p] : flagByte (decide p) = if p then 1 else 0 :=
  ite_congr (propext decide_eq_true_iff) (fun _ => rfl) fun _ => rfl

theorem carryFlag_eq_ite (a b : Byte) : carryFlag a b = if a.toNat + b.toNat > 255 then 1 else 0 := flagByte_decide _

theorem noBorrowFlag_eq_ite (a b : Byte) : noBorrowFlag a b = if a.toNat ≥ b.toNat then 1 else 0 := flagByte_decide _

theorem toNat_shiftedOutLow (b : Byte) : (shiftedOutLow b).toNat = b.toNat % 2 :=
  (BitVec.toNat_and b 1).trans (Nat.and_one_is_mod _)

/-- A byte has nothing above bit 7, so that the mask drops nothing. -/
theorem toNat_shiftedOutHigh (b : Byte) : (shiftedOutHigh b).toNat = b.toNat / 128 := by
  have hb : b.toNat < 256 := b.isLt
  calc (shiftedOutHigh b).toNat = b.toNat / 2 ^ 7 % 2 := by
        rw [shiftedOutHigh, BitVec.toNat_and, BitVec.toNat_ushiftRight, Nat.shiftRight_eq_div_pow]
        exact Nat.and_one_is_mod _
    _ = b.toNat / 128 := by omega

/-! ### The instructions that write no flag -/

/-- Settles O28: each is one register write. -/
theorem loadsWriteOneRegister : Obligations.LoadsWriteOneRegister :=
  fun x y nn => ⟨encodedAs_encode (.ldImm x nn), encodedAs_encode (.ldReg x y), fun s =>
    ⟨_, _, rfl, rfl, s.readV_writeV_self x nn, s.readV_writeV_self x _, changesOnly_writeV s x nn,
      changesOnly_writeV s x _⟩⟩

/-- Settles O29: one register write, of the sum of two bytes. -/
theorem addImmediateWrapsWithoutFlag : Obligations.AddImmediateWrapsWithoutFlag := by
  refine fun x nn => ⟨encodedAs_encode (.addImm x nn), fun s => ⟨_, rfl, ?_, changesOnly_writeV s x _⟩⟩
  rw [State.readV_writeV_self, BitVec.toNat_add]

/-- Settles O30: each is one register write, of the bitwise operation on the two bytes. -/
theorem logicWorksBitByBitWithoutFlag : Obligations.LogicWorksBitByBitWithoutFlag := by
  refine fun x y => ⟨encodedAs_encode (.orReg x y), encodedAs_encode (.andReg x y), encodedAs_encode (.xorReg x y),
    fun s => ⟨_, _, _, rfl, rfl, rfl, fun b => ?_, ?_⟩⟩
  · simp only [State.readV_writeV_self]
    exact ⟨BitVec.getLsbD_or, BitVec.getLsbD_and, BitVec.getLsbD_xor⟩
  · simp only [List.forall_mem_cons]
    exact ⟨changesOnly_writeV s x _, changesOnly_writeV s x _, changesOnly_writeV s x _, nofun⟩

/-- Settles O36: the draw, then one register write; the free byte is the one the counter named before the draw. -/
theorem randomMasksAFreshByte : Obligations.RandomMasksAFreshByte := by
  refine fun x nn => ⟨encodedAs_encode (.rnd x nn), fun s => ⟨_, rfl, fun b => ?_, rfl,
    changesOnly_drawn_writeV s x _⟩⟩
  rw [State.readV_writeV_self]
  exact BitVec.getLsbD_and

/-! ### The instructions that write the flag, then the value -/

/-- Settles O31: value and flag are of the sum of the registers as read at the start. -/
theorem addSetsCarry : Obligations.AddSetsCarry := by
  refine fun x y => ⟨encodedAs_encode (.addReg x y), fun s => ⟨_, rfl, ?_, fun hx => ?_,
    changesOnly_writeFlagThenValue s x _ _⟩⟩
  · rw [State.readV_writeFlagThenValue_self, BitVec.toNat_add]
  · rw [s.readV_writeFlagThenValue_vf hx, carryFlag_eq_ite]

/-- Settles O32: value and flag are of the difference of the registers as read at the start. -/
theorem subtractSetsNoBorrow : Obligations.SubtractSetsNoBorrow := by
  refine fun x y => ⟨encodedAs_encode (.sub x y), fun s => ⟨_, rfl, ?_, fun hx => ?_,
    changesOnly_writeFlagThenValue s x _ _⟩⟩
  · rw [State.readV_writeFlagThenValue_self, toNat_sub_eq_emod]
  · rw [s.readV_writeFlagThenValue_vf hx, noBorrowFlag_eq_ite]

/-- Settles O34: as `subtractSetsNoBorrow`, with the registers exchanged. -/
theorem reverseSubtractSetsNoBorrow : Obligations.ReverseSubtractSetsNoBorrow := by
  refine fun x y => ⟨encodedAs_encode (.subn x y), fun s => ⟨_, rfl, ?_, fun hx => ?_,
    changesOnly_writeFlagThenValue s x _ _⟩⟩
  · rw [State.readV_writeFlagThenValue_self, toNat_sub_eq_emod]
  · rw [s.readV_writeFlagThenValue_vf hx, noBorrowFlag_eq_ite]

/-- Settles O33: the shift reads no y, and value and dropped bit are quotient and remainder of Vx by 2. -/
theorem shiftRightDropsTheLowBit : Obligations.ShiftRightDropsTheLowBit := by
  refine fun x y => ⟨encodedAs_encode (.shr x y), fun s => ⟨fun _ => rfl, _, rfl, ?_, fun hx => ?_,
    changesOnly_writeFlagThenValue s x _ _⟩⟩
  · rw [State.readV_writeFlagThenValue_self, BitVec.toNat_ushiftRight, Nat.shiftRight_one]
  · rw [s.readV_writeFlagThenValue_vf hx, toNat_shiftedOutLow]

/-- Settles O35: the shift reads no y, and the dropped bit is the quotient of Vx by 128. -/
theorem shiftLeftDropsTheHighBit : Obligations.ShiftLeftDropsTheHighBit := by
  refine fun x y => ⟨encodedAs_encode (.shl x y), fun s => ⟨fun _ => rfl, _, rfl, ?_, fun hx => ?_,
    changesOnly_writeFlagThenValue s x _ _⟩⟩
  · rw [State.readV_writeFlagThenValue_self, toNat_shiftLeft_one]
  · rw [s.readV_writeFlagThenValue_vf hx, toNat_shiftedOutHigh]

end Sys2Proof.Machine
end

section
/-!
SUPPORT. The index register and the accesses at I (43_index_memory.md): the values I receives as numbers, and what a
store at I and a load at I leave, or the fault each takes instead (20_memory.md R55, R56).
-/

namespace Sys2Proof.Machine

/-! ### The index register -/

@[simp] theorem toNat_indexSum (i : Word) (b : Byte) : (indexSum i b).toNat = (i.toNat + b.toNat) % 4096 := by
  rw [indexSum, BitVec.toNat_ofNat]
  omega

/-- The largest glyph address, 255 * 5, fits in I, so that Vx is not masked (43_index_memory.md R152). -/
@[simp] theorem toNat_glyphAddress (b : Byte) : (glyphAddress b).toNat = b.toNat * 5 := by
  rw [glyphAddress, BitVec.toNat_ofNat]
  omega

/-- Settles O37: each is one write of I. -/
theorem indexRegisterIsSetAddedAndScaled : Obligations.IndexRegisterIsSetAddedAndScaled := by
  refine fun nnn x => ⟨encodedAs_encode (.ldI nnn), encodedAs_encode (.addI x), encodedAs_encode (.ldF x), fun s =>
    ⟨_, _, _, rfl, rfl, rfl, toNat_addressOperand nnn, toNat_indexSum s.i _, toNat_glyphAddress _, ?_⟩⟩
  simp only [List.forall_mem_cons]
  exact ⟨changesOnly_setI s _, changesOnly_setI s _, changesOnly_setI s _, nofun⟩

/-! ### A store at I -/

section
variable {i : Instr} {s : State} {bs : List Byte}

/-- Each byte of a write that stays below 0x1000 reads back. -/
theorem Memory.read_writeBytes_add {m : Memory} {a k : Nat} {b : Byte} (hm : Memory.wf m) (hl : a + bs.length ≤ 4096)
    (hk : bs[k]? = some b) : Memory.read (Memory.writeBytes m a bs) (a + k) = b := by
  rw [Memory.read_writeBytes bs m a hm hl, if_pos (Nat.le_add_right a k), Nat.add_sub_cancel_left, hk, Option.getD_some]

/-- A store in range, outside the reserved area or with that area not protected. -/
theorem commit_writeAtI_stores (hm : Memory.wf s.mem) (hb : 0 < bs.length) (hl : s.i.toNat + bs.length ≤ 4096)
    (hr : s.cfg.reservedWrite = .fault → 0x1FF < s.i.toNat) :
    Answers (s.commit i (s.writeAtI bs)) fun t =>
      (∀ k b, bs[k]? = some b → Memory.read t.mem (s.i.toNat + k) = b) ∧
        ChangesOnly (memoryRange s.i.toNat bs.length) s t := by
  rw [State.writeAtI, State.memWrite_ok hb hl hr]
  exact answers_next ⟨fun k b hk => Memory.read_writeBytes_add hm hl hk, changesOnly_writeBytes s hm _ bs hl⟩

theorem commit_error_faultTaken {c : Cause} {r : Except Cause State} (hr : r = .error c) :
    Answers (s.commit i r) fun t => FaultTaken s t (s.pc - 2) (some (encode i)) c.1 c.2 :=
  hr ▸ answers_next (takeFault_faultTaken s _ _ c)

theorem commit_writeAtI_dataOutOfRange (hb : 0 < bs.length) (hl : 4096 < s.i.toNat + bs.length) :
    Answers (s.commit i (s.writeAtI bs)) fun t =>
      FaultTaken s t (s.pc - 2) (some (encode i)) .dataOutOfRange (.addr s.i) := by
  obtain ⟨hl', -⟩ | ⟨-, e⟩ | ⟨hl', -⟩ := State.memWrite_cases s s.i bs hb
  · omega
  · exact commit_error_faultTaken e
  · omega

theorem commit_writeAtI_reservedWrite (hb : 0 < bs.length) (hl : s.i.toNat + bs.length ≤ 4096)
    (ha : s.i.toNat ≤ 0x1FF) (hp : s.cfg.reservedWrite = .fault) :
    Answers (s.commit i (s.writeAtI bs)) fun t =>
      FaultTaken s t (s.pc - 2) (some (encode i)) .reservedWrite (.addr s.i) := by
  obtain ⟨-, hfree, -⟩ | ⟨hl', -⟩ | ⟨-, -, -, e⟩ := State.memWrite_cases s s.i bs hb
  · exact absurd ⟨hp, ha⟩ hfree
  · omega
  · exact commit_error_faultTaken e

end

/-! ### BCD -/

/-- Settles O38: one store of the three digits at I; the reserved area ends far below 0xFFD, so that a store that
starts in it is in range. -/
theorem bcdStoresTheThreeDigits : Obligations.BcdStoresTheThreeDigits := by
  refine fun x => ⟨encodedAs_encode (.ldB x), fun s hm => ?_⟩
  have hlen : (bcdDigits (s.readV x)).length = 3 := length_bcdDigits _
  refine ⟨fun hl hr => ?_, fun hl => ?_, fun ha hp => ?_⟩
  · have hv : (s.readV x).toNat < 256 := (s.readV x).isLt
    obtain ⟨t, e, hread, hframe⟩ :=
      commit_writeAtI_stores (i := .ldB x) (bs := bcdDigits (s.readV x)) hm (by omega) (by omega) hr
    have digit : ∀ k n, (bcdDigits (s.readV x))[k]? = some (BitVec.ofNat 8 n) → n < 256 →
        (Memory.read t.mem (s.i.toNat + k)).toNat = n := fun k n hk hn => by
      rw [hread k _ hk, BitVec.toNat_ofNat, Nat.mod_eq_of_lt hn]
    exact ⟨t, e, digit 0 _ rfl (by omega), digit 1 _ rfl (by omega), digit 2 _ rfl (by omega), hlen ▸ hframe⟩
  · exact commit_writeAtI_dataOutOfRange (by omega) (by omega)
  · exact commit_writeAtI_reservedWrite (by omega) (by omega) ha hp

/-! ### Register dump -/

/-- Settles O39: one store of V0..Vx at I. -/
theorem dumpStoresTheRegisters : Obligations.DumpStoresTheRegisters := by
  refine fun x => ⟨encodedAs_encode (.ldMemV x), fun s hm => ?_⟩
  have hlen : (s.registersUpTo x).length = x.val + 1 := s.length_registersUpTo x
  refine ⟨fun hl hr => ?_, fun hl => ?_, fun ha hp => ?_⟩
  · obtain ⟨t, e, hread, hframe⟩ :=
      commit_writeAtI_stores (i := .ldMemV x) (bs := s.registersUpTo x) hm (by omega) (by omega) hr
    refine ⟨t, e, fun k hk => hread k _ ?_, hlen ▸ hframe⟩
    rw [s.getElem?_registersUpTo, if_pos hk]
  · exact commit_writeAtI_dataOutOfRange (by omega) (by omega)
  · exact commit_writeAtI_reservedWrite (by omega) (by omega) ha hp

/-! ### A load at I -/

section
variable {i : Instr} {s : State} {n : Nat} {f : List Byte → State}

theorem commit_readAtI_map_of_le (hl : s.i.toNat + n ≤ 4096) :
    s.commit i ((s.readAtI n).map f) = .next (f (Memory.readBytes s.mem s.i.toNat n)) := by
  rw [State.readAtI, State.memRead_ok hl]
  rfl

theorem commit_readAtI_map_dataOutOfRange (hn : 0 < n) (hl : 4096 < s.i.toNat + n) :
    Answers (s.commit i ((s.readAtI n).map f)) fun t =>
      FaultTaken s t (s.pc - 2) (some (encode i)) .dataOutOfRange (.addr s.i) := by
  rw [State.readAtI, State.memRead_error hn hl]
  exact commit_error_faultTaken rfl

end

/-- Settles O40: one load at I, and one write of the registers its bytes reach. -/
theorem loadFillsTheRegisters : Obligations.LoadFillsTheRegisters := by
  refine fun x => ⟨encodedAs_encode (.ldVMem x), fun s => ⟨fun hl => ?_, fun hl => ?_⟩⟩
  · have hlt : ∀ k : Reg, k ≤ x ↔ k.val < x.val + 1 := fun k => Nat.lt_succ_iff.symm
    refine ⟨_, commit_readAtI_map_of_le (by omega), fun k hk => ?_, (changesOnly_writeFirst s _).mono ?_⟩
    · rw [State.readV_writeFirst, Memory.getElem?_readBytes, if_pos ((hlt k).1 hk), Option.getD_some]
    · rintro p ⟨k, hk, hp⟩
      rw [Memory.length_readBytes] at hk
      exact ⟨k, (hlt k).2 hk, hp⟩
  · exact commit_readAtI_map_dataOutOfRange (Nat.succ_pos _) (by omega)

end Sys2Proof.Machine
end

section
/-!
SUPPORT. The framebuffer's two instructions (44_display.md R170 to R175): the clear, the draw of the sprite at I, and
two draws of the same sprite, which flip each covered pixel twice.
-/

namespace Sys2Proof.Machine

/-! ### Clear -/

/-- Settles O42: one write of FB, of the all-unlit grid, which is what a framebuffer read then answers. -/
theorem clearUnlightsEveryPixel : Obligations.ClearUnlightsEveryPixel := by
  have hblank : ∀ x y, gridGet blankFb x y = false := gridGet_replicate false
  exact ⟨encodedAs_encode .cls, fun s => ⟨_, rfl, hblank, ⟨_, rfl, hblank⟩, changesOnly_setFb s _⟩⟩

/-! ### One draw of the sprite at I -/

/-- The state after the `n` sprite rows at I are drawn at (vx, vy): what Dxyn completes with (44_display.md R172). -/
def State.drawAtI (s : State) (vx vy : Byte) (n : Nat) : State :=
  s.drawSprite vx vy (Memory.readBytes s.mem s.i.toNat n)

/-- A sprite of no rows is drawn wherever I points, decision D4. -/
theorem execDrw_of_inRange (s : State) (x y : Reg) {n : BitVec 4}
    (h : n.toNat = 0 ∨ s.i.toNat + n.toNat ≤ 4096) :
    execDrw x y n s = .next (s.drawAtI (s.readV x) (s.readV y) n.toNat) := by
  obtain ⟨-, e⟩ | ⟨hn, hl, -⟩ := State.memRead_cases s s.i n.toNat
  · rw [execDrw, State.readAtI, e]
    rfl
  · omega

/-- The pixels a draw of the sprite at I toggles are the covered ones (44_display.md R172, R173). -/
theorem mem_spritePixels_readBytes (s : State) (vx vy n : Nat) (px : Fin 64) (py : Fin 32) :
    (px, py) ∈ spritePixels vx vy 0 (Memory.readBytes s.mem s.i.toNat n) ↔ SpriteCovers s vx vy n px py := by
  have hrow : ∀ r b, (Memory.readBytes s.mem s.i.toNat n)[r]? = some b ↔
      r < n ∧ Memory.read s.mem (s.i.toNat + r) = b := fun r b => by
    rw [Memory.getElem?_readBytes, Option.ite_none_right_eq_some, Option.some.injEq]
  simp only [mem_spritePixels, hrow, Nat.zero_add]
  constructor
  · rintro ⟨r, col, b, ⟨hr, rfl⟩, hcol, hbit, hx, hy⟩
    exact ⟨r, col, hr, hcol, hbit, hx, hy⟩
  · rintro ⟨r, col, hr, hcol, hbit, hx, hy⟩
    exact ⟨r, col, _, ⟨hr, rfl⟩, hcol, hbit, hx, hy⟩

section
variable (s : State) (vx vy : Byte) {n : Nat} (hn : n ≤ 32)
include hn

/-- A draw flips exactly the covered pixels. -/
theorem State.pixel_drawAtI (px : Fin 64) (py : Fin 32) :
    (s.drawAtI vx vy n).pixel px py = true ↔
      ¬ (s.pixel px py = true ↔ SpriteCovers s vx.toNat vy.toNat n px py) := by
  obtain ⟨hpixel, -⟩ := s.drawSprite_spec vx vy (Memory.readBytes s.mem s.i.toNat n) (by simpa using hn)
  rw [State.drawAtI, hpixel, ← mem_spritePixels_readBytes]
  rw [bne_iff_ne, ne_eq, Bool.eq_iff_iff, decide_eq_true_iff]

/-- The flag a draw leaves is the one of a lit pixel among the covered ones. -/
theorem State.readV_vf_drawAtI : ∃ c, (s.drawAtI vx vy n).readV vf = flagByte c ∧
    (c = true ↔ ∃ px py, s.pixel px py = true ∧ SpriteCovers s vx.toNat vy.toNat n px py) := by
  obtain ⟨-, hflag⟩ := s.drawSprite_spec vx vy (Memory.readBytes s.mem s.i.toNat n) (by simpa using hn)
  refine ⟨_, hflag, ?_⟩
  simp only [List.any_eq_true, Prod.exists, mem_spritePixels_readBytes, and_comm]

theorem State.readV_vf_drawAtI_eq_one_iff : (s.drawAtI vx vy n).readV vf = 1 ↔
    ∃ px py, s.pixel px py = true ∧ SpriteCovers s vx.toNat vy.toNat n px py := by
  obtain ⟨c, hflag, hc⟩ := s.readV_vf_drawAtI vx vy hn
  rw [hflag, ← hc]
  cases c <;> decide

end

/-- A sprite is drawn with at most 15 rows. -/
theorem spriteRows_le (n : BitVec 4) : n.toNat ≤ 32 := by omega

/-- Settles O43: the draw completes with the sprite at I drawn at the coordinates read first, or takes the fault of its
read. -/
theorem drawFlipsTheCoveredPixels : Obligations.DrawFlipsTheCoveredPixels := by
  refine fun x y n => ⟨encodedAs_encode (.drw x y n), fun s => ⟨fun hin => ?_, fun hn hout => ?_⟩⟩
  · have hin' : n.toNat = 0 ∨ s.i.toNat + n.toNat ≤ 4096 := hin.imp (congrArg BitVec.toNat) fun h => by omega
    refine ⟨_, execDrw_of_inRange s x y hin', s.pixel_drawAtI _ _ (spriteRows_le n), ?_,
      changesOnly_drawSprite s _ _ _⟩
    obtain ⟨c, hflag, hc⟩ := s.readV_vf_drawAtI (s.readV x) (s.readV y) (spriteRows_le n)
    cases c with
    | true => exact .inl ⟨hflag, hc.1 rfl⟩
    | false => exact .inr ⟨hflag, fun px py hlit hcov => nomatch hc.2 ⟨px, py, hlit, hcov⟩⟩
  · have hn' : n.toNat ≠ 0 := fun h => hn (BitVec.eq_of_toNat_eq h)
    exact commit_readAtI_map_dataOutOfRange (by omega) (by omega)

/-! ### Two draws of the same sprite -/

/-- The second draw reads the rows the first one read, since I and memory are as they were. -/
theorem spriteCovers_drawAtI (s : State) (vx vy : Byte) (m : Nat) :
    SpriteCovers (s.drawAtI vx vy m) = SpriteCovers s := rfl

theorem State.readV_drawAtI_of_ne_vf (s : State) (vx vy : Byte) (n : Nat) {x : Reg} (hx : x ≠ vf) :
    (s.drawAtI vx vy n).readV x = s.readV x := by
  rw [State.drawAtI, State.drawSprite, State.readV_setFb, State.readV_writeV, if_neg hx]

/-- Some pixel is covered exactly when the sprite has a set bit: every bit falls on the screen. -/
theorem exists_spriteCovers_iff (s : State) (vx vy n : Nat) :
    (∃ px py, SpriteCovers s vx vy n px py) ↔
      ∃ r col, r < n ∧ col < 8 ∧ (Memory.read s.mem (s.i.toNat + r)).getLsbD (7 - col) = true := by
  constructor
  · rintro ⟨-, -, r, col, hr, hcol, hbit, -, -⟩
    exact ⟨r, col, hr, hcol, hbit⟩
  · rintro ⟨r, col, hr, hcol, hbit⟩
    exact ⟨spriteColumn vx col, spriteRow vy r, r, col, hr, hcol, hbit, rfl, rfl⟩

section
variable (s : State) (vx vy : Byte) {n : Nat} (hn : n ≤ 32)
include hn

/-- Flipped twice, every pixel is as it was. -/
theorem State.fb_drawAtI_drawAtI : ((s.drawAtI vx vy n).drawAtI vx vy n).fb = s.fb := by
  refine grid_ext fun px py => Bool.eq_iff_iff.2 ?_
  change ((s.drawAtI vx vy n).drawAtI vx vy n).pixel px py = true ↔ s.pixel px py = true
  rw [State.pixel_drawAtI _ vx vy hn, State.pixel_drawAtI s vx vy hn, spriteCovers_drawAtI]
  tauto

/-- The second draw finds lit exactly the covered pixels that were unlit before the first (log entry 18). -/
theorem State.readV_vf_drawAtI_drawAtI_eq_one_iff : ((s.drawAtI vx vy n).drawAtI vx vy n).readV vf = 1 ↔
    ∃ px py, s.pixel px py = false ∧ SpriteCovers s vx.toNat vy.toNat n px py := by
  rw [State.readV_vf_drawAtI_eq_one_iff _ vx vy hn, spriteCovers_drawAtI]
  refine exists_congr fun px => exists_congr fun py => and_congr_left fun hcov => ?_
  rw [State.pixel_drawAtI s vx vy hn, iff_true_right hcov, Bool.not_eq_true]

theorem changesOnly_drawAtI_drawAtI :
    ChangesOnly (fun p => p = .v vf) s ((s.drawAtI vx vy n).drawAtI vx vy n) := by
  have hframe : ChangesOnly (fun p => anyPixel p ∨ p = .v vf) s ((s.drawAtI vx vy n).drawAtI vx vy n) :=
    (changesOnly_drawSprite s vx vy _).trans (changesOnly_drawSprite _ vx vy _)
  intro p hp
  by_cases hpixel : anyPixel p
  · obtain ⟨px, py, rfl⟩ := hpixel
    exact State.pixel_congr (s.fb_drawAtI_drawAtI vx vy hn) px py
  · exact hframe p (not_or.2 ⟨hpixel, hp⟩)

end

/-- Settles O44: with x and y other than F the second draw is of the same rows at the same place. -/
theorem drawTwiceRestoresTheFramebuffer : Obligations.DrawTwiceRestoresTheFramebuffer := by
  intro x y n s hx hy hin covers
  have hn : n.toNat ≤ 32 := spriteRows_le n
  have hflag := s.readV_vf_drawAtI_drawAtI_eq_one_iff (s.readV x) (s.readV y) hn
  have hsecond := execDrw_of_inRange (s.drawAtI (s.readV x) (s.readV y) n.toNat) x y (n := n) (.inr hin)
  rw [s.readV_drawAtI_of_ne_vf _ _ _ hx, s.readV_drawAtI_of_ne_vf _ _ _ hy] at hsecond
  refine ⟨_, _, execDrw_of_inRange s x y (.inr hin), hsecond, s.fb_drawAtI_drawAtI _ _ hn, hflag, fun hunlit => ?_,
    changesOnly_drawAtI_drawAtI s _ _ hn⟩
  rw [hflag, ← exists_spriteCovers_iff s (s.readV x).toNat (s.readV y).toNat]
  exact exists_congr fun px => exists_congr fun py => and_iff_right_of_imp (hunlit px py)

end Sys2Proof.Machine
end

section
/-!
SUPPORT. The compositor (44_display.md R180 to R187): what composite leaves in Vis, and that no other action depends on
what composite writes or reads, shown by commuting every action with `State.withoutDisplay`.
-/

namespace Sys2Proof.Machine

/-! ### composite -/

theorem changesOnly_composite (s : State) (frame : Grid Bool) (e : Bool) :
    ChangesOnly (fun p => ∃ x y, p = .vis x y) s (s.composite frame e) := by
  intro p hp
  cases p
  case vis x y => exact absurd ⟨x, y, rfl⟩ hp
  all_goals rfl

theorem roundHalfEven_zero {d : Nat} (hd : 0 < d) : roundHalfEven 0 d = 0 := by
  rw [roundHalfEven, Nat.zero_mod, if_pos (by omega), Nat.zero_div]

theorem roundToIntensity_zero : roundToIntensity 0 = Config.zeroIntensity := by
  rw [roundToIntensity, roundHalfEven_zero (Nat.two_pow_pos _)]
  rfl

/-- The factor 0.0 of a disabled decay blanks any intensity (44_display.md R182). -/
theorem intensityMul_zeroIntensity (v : Intensity) : intensityMul v Config.zeroIntensity = Config.zeroIntensity :=
  calc intensityMul v Config.zeroIntensity = roundToIntensity (intensityUnits v * 0) := rfl
    _ = Config.zeroIntensity := by rw [Nat.mul_zero, roundToIntensity_zero]

/-- Settles O53: composite is one write of Vis, pixel by pixel. -/
theorem compositeLightsOrDecays : Obligations.CompositeLightsOrDecays := by
  refine fun s frame e => ⟨rfl, gridGet_composite s frame e, ?_, changesOnly_composite s frame e⟩
  rintro rfl x y
  calc gridGet (s.composite frame false).vis x y
      = if gridGet frame x y then Config.fullIntensity
        else intensityMul (gridGet s.vis x y) Config.zeroIntensity := gridGet_composite s frame false x y
    _ = if gridGet frame x y then Config.fullIntensity else Config.zeroIntensity := by rw [intensityMul_zeroIntensity]

/-! ### The shared operations commute with blanking the display -/

@[simp] theorem State.halted_withoutDisplay (s : State) : s.withoutDisplay.halted = s.halted := rfl
@[simp] theorem State.fetch_withoutDisplay (s : State) : s.withoutDisplay.fetch = s.fetch := rfl

theorem State.memWrite_withoutDisplay (s : State) (addr : Word) (bs : List Byte) :
    s.withoutDisplay.memWrite addr bs = (s.memWrite addr bs).map State.withoutDisplay := by
  simp only [State.memWrite, apply_ite (Except.map State.withoutDisplay)]
  rfl

theorem State.push_withoutDisplay (s : State) (a : Word) :
    s.withoutDisplay.push a = (s.push a).map State.withoutDisplay := by
  simp only [State.push, apply_ite (Except.map State.withoutDisplay)]
  rfl

theorem State.pop_withoutDisplay (s : State) :
    s.withoutDisplay.pop = s.pop.map fun p => (p.1, p.2.withoutDisplay) := by
  obtain ⟨hs, e⟩ | ⟨r, rest, hs, e⟩ := State.pop_cases s
  · rw [e, State.pop, show s.withoutDisplay.stack = [] from hs]
    rfl
  · rw [e, State.pop, show s.withoutDisplay.stack = rest ++ [r] from hs, List.getLast?_concat, List.dropLast_concat]
    rfl

theorem State.skipIf_withoutDisplay (s : State) (taken : Bool) :
    s.withoutDisplay.skipIf taken = (s.skipIf taken).withoutDisplay := by
  cases taken <;> rfl

/-- The stages before execute see neither Vis nor DECAY_FACTOR. -/
theorem State.front_withoutDisplay (s : State) :
    s.withoutDisplay.front =
      (s.front.mapError State.withoutDisplay).map fun p => (p.1, p.2.withoutDisplay) := by
  unfold State.front
  rw [State.halted_withoutDisplay, State.fetch_withoutDisplay]
  rcases s.halted with _ | _
  · rcases s.fetch with _ | w
    · rfl
    · cases hd : decode w <;> simp only [hd] <;> rfl
  · rfl

/-! ### Instructions, steps and actions -/

/-- `f` answers a next state from `s`, and from `s` with the display blanked it answers that state with the display
blanked. -/
def CommutesWithBlanking (f : State → Result) (s : State) : Prop :=
  Answers (f s) fun t => f s.withoutDisplay = .next t.withoutDisplay

section
variable {i : Instr} {s : State}

theorem commit_commutesWithBlanking {r : State → Except Cause State}
    (hr : r s.withoutDisplay = (r s).map State.withoutDisplay) :
    CommutesWithBlanking (fun u => u.commit i (r u)) s := by
  change Answers (s.commit i (r s)) fun t => s.withoutDisplay.commit i (r s.withoutDisplay) = .next t.withoutDisplay
  rw [hr]
  cases r s <;> exact ⟨_, rfl, rfl⟩

/-- An access that does not see the display, followed by writes that commute. -/
theorem commit_map_commutesWithBlanking {α : Type} {r : State → Except Cause α} {f : State → α → State}
    (hr : r s.withoutDisplay = r s) (hf : ∀ a, f s.withoutDisplay a = (f s a).withoutDisplay) :
    CommutesWithBlanking (fun u => u.commit i ((r u).map (f u))) s := by
  refine commit_commutesWithBlanking ?_
  rw [hr]
  cases r s with
  | ok a => exact congrArg Except.ok (hf a)
  | error c => rfl

end

theorem execRet_commutesWithBlanking (s : State) : CommutesWithBlanking execRet s := by
  refine commit_commutesWithBlanking ?_
  rw [State.pop_withoutDisplay]
  cases s.pop <;> rfl

theorem execCall_commutesWithBlanking (nnn : BitVec 12) (s : State) : CommutesWithBlanking (execCall nnn) s := by
  refine commit_commutesWithBlanking (r := fun u => (u.push u.pc).map fun t => t.setPc (addressOperand nnn)) ?_
  change (s.withoutDisplay.push s.pc).map _ = _
  rw [State.push_withoutDisplay]
  cases s.push s.pc <;> rfl

theorem execLdVxK_commutesWithBlanking (x : Reg) (s : State) : CommutesWithBlanking (execLdVxK x) s := by
  have hkey : s.withoutDisplay.lowestKey = s.lowestKey := rfl
  unfold CommutesWithBlanking execLdVxK
  rw [hkey]
  cases s.lowestKey <;> exact ⟨_, rfl, rfl⟩

/-- Every instruction commutes with blanking the display. -/
theorem exec_commutesWithBlanking (i : Instr) (s : State) : CommutesWithBlanking (exec i) s := by
  cases i with
  | ret => exact execRet_commutesWithBlanking s
  | call nnn => exact execCall_commutesWithBlanking nnn s
  | seImm | sneImm | seReg | sneReg => exact ⟨_, rfl, congrArg Host.Outcome.next (s.skipIf_withoutDisplay _)⟩
  | drw | ldVMem => exact commit_map_commutesWithBlanking rfl fun _ => rfl
  | skp | sknp => exact commit_map_commutesWithBlanking rfl fun _ => s.skipIf_withoutDisplay _
  | ldVxK x => exact execLdVxK_commutesWithBlanking x s
  | ldB | ldMemV => exact commit_commutesWithBlanking (s.memWrite_withoutDisplay _ _)
  | cls | jp | jpV0 | ldImm | addImm | ldReg | orReg | andReg | xorReg | addReg | sub | shr | subn | shl | ldI | rnd
  | ldVxDt | ldDt | ldSt | addI | ldF => exact ⟨_, rfl, rfl⟩

theorem step_commutesWithBlanking (s : State) : CommutesWithBlanking step s := by
  unfold CommutesWithBlanking step
  rw [State.front_withoutDisplay]
  rcases s.front with t | ⟨i, t⟩
  · exact ⟨t, rfl, rfl⟩
  · exact exec_commutesWithBlanking i t

theorem State.hostStep_withoutDisplay (s : State) : s.withoutDisplay.hostStep = s.hostStep.withoutDisplay := by
  obtain ⟨t, e, e'⟩ := step_commutesWithBlanking s
  rw [State.hostStep, State.hostStep, e, e']

theorem State.act_load (s : State) (bytes : List Byte) :
    s.act (.load bytes) =
      if maxRom < bytes.length then s else { s with mem := Memory.writeBytes s.mem 0x200 bytes } := by
  simp only [State.act, State.load]
  split_ifs <;> rfl

/-- Every action but composite commutes with blanking the display. -/
theorem State.act_withoutDisplay (s : State) {a : Action} (ha : a.isComposite = false) :
    s.withoutDisplay.act a = (s.act a).withoutDisplay := by
  cases a with
  | step => exact s.hostStep_withoutDisplay
  | load bytes =>
    rw [State.act_load, State.act_load, apply_ite State.withoutDisplay]
    rfl
  | composite => cases ha
  | tickTimers | setKey | capture | restore | readFb | readDt | readSoundActive | construct => rfl

/-- composite writes nothing that blanking leaves. -/
theorem State.withoutDisplay_act_composite (s : State) {a : Action} (ha : a.isComposite = true) :
    (s.act a).withoutDisplay = s.withoutDisplay := by
  cases a with
  | composite => rfl
  | _ => cases ha

/-- No answer but composite's sees the display. -/
theorem State.answer_withoutDisplay (s : State) {a : Action} (ha : a.isComposite = false) :
    s.withoutDisplay.answer a = s.answer a := by
  cases a with
  | step =>
    unfold State.answer
    rw [s.act_withoutDisplay ha]
    rfl
  | composite => cases ha
  | tickTimers | setKey | load | capture | restore | readFb | readDt | readSoundActive | construct => rfl

/-- Two machines that differ only in the display differ only there after a run, the composite calls left out of one of
them (44_display.md R185). -/
theorem acts_withoutDisplay_eq (l : List Action) : ∀ s s' : State, s.withoutDisplay = s'.withoutDisplay →
    (s.acts l).withoutDisplay = (s'.acts (l.filter fun a => !a.isComposite)).withoutDisplay := by
  induction l with
  | nil => exact fun _ _ h => h
  | cons a l ih =>
    intro s s' h
    cases ha : a.isComposite with
    | true =>
      rw [List.filter_cons_of_neg (by simp [ha])]
      exact ih (s.act a) s' ((s.withoutDisplay_act_composite ha).trans h)
    | false =>
      rw [List.filter_cons_of_pos (by simp [ha])]
      exact ih (s.act a) (s'.act a) (by rw [← s.act_withoutDisplay ha, h, s'.act_withoutDisplay ha])

/-- Settles O56: every other action commutes with blanking what composite writes and reads, and its answer is the same
from the blanked state. -/
theorem machineIgnoresTheCompositor : Obligations.MachineIgnoresTheCompositor := by
  refine ⟨changesOnly_composite, fun s s' l h => ⟨acts_withoutDisplay_eq l s s' h, fun a ha => ?_⟩⟩
  rw [← s.answer_withoutDisplay ha, h, s'.answer_withoutDisplay ha]

end Sys2Proof.Machine
end

section
/-!
SUPPORT. Timers and keypad (45_timers_keypad.md), in the execute stage, where PC is a + 2: which key a key operand names,
which key is the lowest pressed, and what the key skips and the key wait answer in each case.
-/

namespace Sys2Proof.Machine

/-! ### The key skips -/

theorem keyOperand_eq_ok_of_toNat_eq {b : Byte} {k : KeyId} (h : b.toNat = k.val) : keyOperand b = .ok k := by
  obtain ⟨hb, e⟩ | ⟨hb, -⟩ := keyOperand_cases b
  · exact e.trans (congrArg Except.ok (Fin.ext h))
  · omega

theorem keyOperand_eq_error_of_lt {b : Byte} (h : 15 < b.toNat) :
    keyOperand b = .error (.keyIndexOutOfRange, .key b) := by
  obtain ⟨hb, -⟩ | ⟨-, e⟩ := keyOperand_cases b
  · omega
  · exact e

section
variable {i : Instr} {s : State} {b : Byte} {f : KeyId → State}

/-- An instruction that reads a key operand completes for the key it names. -/
theorem commit_keyOperand_map_of_toNat_eq {k : KeyId} (h : b.toNat = k.val) :
    s.commit i ((keyOperand b).map f) = .next (f k) := by
  rw [keyOperand_eq_ok_of_toNat_eq h]
  rfl

/-- An instruction that reads a key operand faults for a byte that names no key (60_exceptions.md R226, decision D6). -/
theorem commit_keyOperand_map_of_lt (h : 15 < b.toNat) :
    s.commit i ((keyOperand b).map f) =
      .next (s.takeFault (s.pc - 2) (some (encode i)) (.keyIndexOutOfRange, .key b)) := by
  rw [keyOperand_eq_error_of_lt h]
  rfl

end

/-- The skip on a condition's complement exchanges the two targets. -/
theorem State.skipIf_not_pc (s : State) (c : Bool) : (s.skipIf (!c)).pc = if c then s.pc else s.pc + 2 := by
  cases c <;> rfl

/-- Settles O45: both are the one skip, on the latch and on its complement, once the operand names a key; they fault
alike where it names none. -/
theorem keySkipsReadTheLatch : Obligations.KeySkipsReadTheLatch := by
  refine fun x => ⟨encodedAs_encode (.skp x), encodedAs_encode (.sknp x), fun s => ⟨fun k hk => ?_, fun hlt => ?_⟩⟩
  · exact ⟨_, _, commit_keyOperand_map_of_toNat_eq hk, commit_keyOperand_map_of_toNat_eq hk,
      s.skipIf_pc_eq_ite Iff.rfl, s.skipIf_not_pc _, changesOnly_skipIf s _, changesOnly_skipIf s _⟩
  · exact ⟨_, _, commit_keyOperand_map_of_lt hlt, commit_keyOperand_map_of_lt hlt, takeFault_faultTaken s _ _ _,
      takeFault_faultTaken s _ _ _⟩

/-! ### The timers -/

theorem State.soundActive_iff (s : State) : s.soundActive = true ↔ s.st ≠ 0 := bne_iff_ne

/-- Settles O46: each is one write, of Vx, of DT or of ST; SoundActive is read from the ST just written. -/
theorem timersAreReadAndWritten : Obligations.TimersAreReadAndWritten :=
  fun x => ⟨encodedAs_encode (.ldVxDt x), encodedAs_encode (.ldDt x), encodedAs_encode (.ldSt x), fun s =>
    ⟨_, _, _, rfl, rfl, rfl, s.readV_writeV_self x s.dt, rfl, rfl, (s.setSt (s.readV x)).soundActive_iff,
      changesOnly_writeV s x _, changesOnly_setDt s _, changesOnly_setSt s _⟩⟩

/-! ### The key wait -/

/-- Only one key is pressed with no lower one pressed. -/
theorem State.lowestKey_eq_some {s : State} {k : KeyId} (hk : s.keyPressed k = true)
    (hlow : ∀ j, j < k → s.keyPressed j = false) : s.lowestKey = some k := by
  obtain ⟨k', e, hk', hlow'⟩ | ⟨-, hnone⟩ := s.lowestKey_cases
  · obtain hlt | rfl | hgt := lt_trichotomy k' k
    · simp [hlow k' hlt] at hk'
    · exact e
    · simp [hlow' k hgt] at hk
  · simp [hnone k] at hk

theorem State.lowestKey_eq_none {s : State} (hnone : ∀ k, s.keyPressed k = false) : s.lowestKey = none := by
  obtain ⟨k, -, hk, -⟩ | ⟨e, -⟩ := s.lowestKey_cases
  · simp [hnone k] at hk
  · exact e

theorem execLdVxK_of_lowestKey_eq_some {s : State} {k : KeyId} (x : Reg) (h : s.lowestKey = some k) :
    execLdVxK x s = .next (s.writeV x (BitVec.ofNat 8 k.val)) := by
  rw [execLdVxK, h]

theorem execLdVxK_of_lowestKey_eq_none {s : State} (x : Reg) (h : s.lowestKey = none) :
    execLdVxK x s = .next (s.setPc (s.pc - 2)) := by
  rw [execLdVxK, h]

/-- Settles O47: one write of Vx, of a key id, which fits in a byte; or one write of PC. -/
theorem keyWaitTakesTheLowestKey : Obligations.KeyWaitTakesTheLowestKey := by
  refine fun x => ⟨encodedAs_encode (.ldVxK x), fun s => ⟨fun k hk hlow => ?_, fun hnone => ?_⟩⟩
  · refine ⟨_, execLdVxK_of_lowestKey_eq_some x (State.lowestKey_eq_some hk hlow), ?_, changesOnly_writeV s x _⟩
    rw [State.readV_writeV_self, BitVec.toNat_ofNat]
    omega
  · exact ⟨_, execLdVxK_of_lowestKey_eq_none x (State.lowestKey_eq_none hnone), rfl, changesOnly_setPc s _⟩

end Sys2Proof.Machine
end

section
/-!
SUPPORT. Decay never brightens (44_display.md R183): the product of an intensity and a factor in [0.0, 1.0] is at most
the intensity, so that composite keeps every intensity in [0.0, 1.0].
-/

namespace Sys2Proof.Machine

theorem mul_two_pow_le {m a k c : Nat} (hm : m ≤ 2 ^ a) (hc : a + k ≤ c) : m * 2 ^ k ≤ 2 ^ c :=
  calc m * 2 ^ k ≤ 2 ^ a * 2 ^ k := Nat.mul_le_mul_right _ hm
    _ = 2 ^ (a + k) := (Nat.pow_add 2 a k).symm
    _ ≤ 2 ^ c := Nat.pow_le_pow_right (by decide) hc

/-- Rounding to a whole number does not pass a whole number. -/
theorem roundHalfEven_le {n d q : Nat} (hd : 0 < d) (h : n ≤ d * q) : roundHalfEven n d ≤ q := by
  have hdiv : d * (n / d) + n % d = n := Nat.div_add_mod n d
  have hle : n / d ≤ q := Nat.div_le_of_le_mul h
  obtain hlt | heq := Nat.lt_or_eq_of_le hle
  · unfold roundHalfEven
    split_ifs <;> omega
  · rw [heq] at hdiv
    rw [roundHalfEven, if_pos (by omega), heq]

/-- The significand has at most 53 bits, or 2^53 itself, which carries into the exponent. -/
theorem roundHalfEven_le_two_pow (n : Nat) : roundHalfEven n (2 ^ (1074 + roundingShift n)) ≤ 2 ^ 53 := by
  refine roundHalfEven_le (Nat.two_pow_pos _) ?_
  have hlog : n < 2 ^ (n.log2 + 1) := Nat.lt_log2_self
  have hexp : n.log2 + 1 ≤ 1074 + roundingShift n + 53 := by unfold roundingShift; omega
  rw [← Nat.pow_add]
  exact hlog.le.trans (Nat.pow_le_pow_right (by decide) hexp)

/-- A value below `2^(53 + k)` units loses at most `k` low bits to a significand of 53 bits. -/
theorem roundingShift_le {n k : Nat} (h : n < 2 ^ (1127 + k)) : roundingShift n ≤ k := by
  obtain rfl | hn := Nat.eq_zero_or_pos n
  · exact Nat.zero_le k
  · have hlog : n.log2 < 1127 + k := (Nat.log2_lt hn.ne').2 h
    unfold roundingShift
    omega

/-- The pattern of a rounded value `n / 2^1074` that is at most `m * 2^k` units, `m` a significand of 53 bits. -/
theorem toNat_roundToIntensity_le {n m k : Nat} (hm : m < 2 ^ 53) (hk : k = 0 ∨ 2 ^ 52 ≤ m)
    (h : n ≤ 2 ^ (1074 + k) * m) : (roundToIntensity n).toNat ≤ k * 2 ^ 52 + m := by
  rw [roundToIntensity, BitVec.toNat_ofNat]
  refine (Nat.mod_le _ _).trans ?_
  have hshift : roundingShift n ≤ k := by
    refine roundingShift_le (h.trans_lt ?_)
    rw [show 1127 + k = 1074 + k + 53 by omega, Nat.pow_add 2 (1074 + k)]
    exact Nat.mul_lt_mul_of_pos_left hm (Nat.two_pow_pos _)
  obtain hlt | heq := Nat.lt_or_eq_of_le hshift
  · have hsig := roundHalfEven_le_two_pow n
    omega
  · have hsig : roundHalfEven n (2 ^ (1074 + roundingShift n)) ≤ m :=
      roundHalfEven_le (Nat.two_pow_pos _) (by rw [heq]; exact h)
    omega

/-- A pattern is a significand of 53 bits, shifted; the pattern adds the shift above the significand. -/
theorem intensityUnits_cases (v : Intensity) : ∃ m k, intensityUnits v = m * 2 ^ k ∧ v.toNat = k * 2 ^ 52 + m ∧
    m < 2 ^ 53 ∧ (k = 0 ∨ 2 ^ 52 ≤ m) := by
  unfold intensityUnits
  split_ifs with he
  · exact ⟨v.toNat, 0, by simp, by simp, by omega, .inl rfl⟩
  · exact ⟨2 ^ 52 + v.toNat % 2 ^ 52, v.toNat / 2 ^ 52 - 1, rfl, by omega, by omega, .inr (by omega)⟩

/-- An intensity is at most 1.0. -/
theorem intensityUnits_le {f : Intensity} (hf : wellFormedIntensity f = true) : intensityUnits f ≤ 2 ^ 1074 := by
  obtain ⟨m, k, hunits, hpattern, hm, hk⟩ := intensityUnits_cases f
  have hle : f.toNat ≤ 1022 * 2 ^ 52 + 2 ^ 52 := of_decide_eq_true hf
  rw [hunits]
  obtain hexp | ⟨hsig, hexp⟩ : k ≤ 1021 ∨ m ≤ 2 ^ 52 ∧ k ≤ 1022 := by omega
  · exact mul_two_pow_le hm.le (by omega)
  · exact mul_two_pow_le hsig (by omega)

/-- The product with a factor in [0.0, 1.0] is no brighter. -/
theorem toNat_intensityMul_le (v : Intensity) {f : Intensity} (hf : wellFormedIntensity f = true) :
    (intensityMul v f).toNat ≤ v.toNat := by
  obtain ⟨m, k, hunits, hpattern, hm, hk⟩ := intensityUnits_cases v
  have hscale (c : Nat) : m * 2 ^ k * 2 ^ c = 2 ^ (c + k) * m := by ring
  rw [hpattern]
  refine toNat_roundToIntensity_le hm hk ?_
  calc intensityUnits v * intensityUnits f
      ≤ intensityUnits v * 2 ^ 1074 := Nat.mul_le_mul (Nat.le_refl _) (intensityUnits_le hf)
    _ = 2 ^ (1074 + k) * m := by rw [hunits, hscale]

theorem wellFormedIntensity_intensityMul {v f : Intensity} (hv : wellFormedIntensity v = true)
    (hf : wellFormedIntensity f = true) : wellFormedIntensity (intensityMul v f) = true :=
  decide_eq_true ((toNat_intensityMul_le v hf).trans (of_decide_eq_true hv))

end Sys2Proof.Machine
end

section
/-!
SUPPORT. The host's actions (60_exceptions.md R240 to R250): the invariant under each of them, the timers under a run of
ticks, the keypad latches, and capture with restore.
-/

namespace Sys2Proof.Machine

/-! ### The invariant under the host's actions -/

namespace StateInv

variable {s : State}

theorem tickTimers (h : StateInv s) : StateInv s.tickTimers := { h with }
theorem setKey (h : StateInv s) (k : KeyId) (p : Bool) : StateInv (s.setKey k p) := { h with }

theorem hostStep (h : StateInv s) : StateInv s.hostStep := by
  obtain ⟨t, e, ht⟩ := step_keeps_stateInv h
  rwa [State.hostStep, e]

/-- The factor of a composite is an intensity, decay enabled or not (44_display.md R182). -/
theorem decayBy (h : StateInv s) (e : Bool) : wellFormedIntensity (s.decayBy e) = true := by
  cases e with
  | true => exact h.decay
  | false => rfl

theorem composite (h : StateInv s) (frame : Grid Bool) (e : Bool) : StateInv (s.composite frame e) := by
  refine { h with vis := fun x y => ?_ }
  rw [gridGet_composite]
  split
  · rfl
  · exact wellFormedIntensity_intensityMul (h.vis x y) (h.decayBy e)

/-- A restore clears the halt, so nothing is recorded at the PC it installs (60_exceptions.md R247). -/
theorem restore (h : StateInv s) {snap : Snapshot} (hsnap : SnapshotInv snap) : StateInv (s.restore snap) where
  memory := hsnap.memory
  index := hsnap.index
  pc := hsnap.pc
  stack := hsnap.stack
  halt := rfl
  record := nofun
  decay := h.decay
  vis := h.vis

theorem reconstruct (h : StateInv s) : StateInv s.reconstruct where
  memory := Memory.wf_writeBytes _ _ _ Memory.wf_nil
  index := Nat.zero_le _
  pc := show 0x200 ≤ 0x10FE by decide
  stack := nofun
  halt := rfl
  record := nofun
  decay := h.decay
  vis x y := congrArg wellFormedIntensity (gridGet_replicate _ x y)

theorem act (h : StateInv s) {a : Action} (ha : a.Admissible) : StateInv (s.act a) := by
  cases a with
  | step => exact h.hostStep
  | tickTimers => exact h.tickTimers
  | setKey k p => exact h.setKey k p
  | load bytes =>
    rw [State.act_load]
    split
    · exact h
    · exact h.writeBytes _ bytes
  | restore snap => exact h.restore (ha snap rfl)
  | composite frame e => exact h.composite frame e
  | construct => exact h.reconstruct
  | capture | readFb | readDt | readSoundActive => exact h

theorem capture (h : StateInv s) : SnapshotInv s.capture := ⟨h.memory, h.index, h.pc, h.stack⟩

end StateInv

/-- Settles O21: each action keeps the invariant; composite does because its factor is at most 1.0, so that no product
is above the old intensity. -/
theorem hostActionsKeepTheInvariant : Obligations.HostActionsKeepTheInvariant :=
  fun _ _ h ha => ⟨h.act ha, h.capture⟩

/-! ### Ticks -/

theorem toNat_countDown (b : Byte) : (countDown b).toNat = b.toNat - 1 := by
  unfold countDown
  split
  · next h => simp [h]
  · bv_omega

theorem State.toNat_dt_tickTimers (s : State) : s.tickTimers.dt.toNat = s.dt.toNat - 1 := toNat_countDown s.dt

theorem State.toNat_st_tickTimers (s : State) : s.tickTimers.st.toNat = s.st.toNat - 1 := toNat_countDown s.st

theorem changesOnly_tickTimers (s : State) : ChangesOnly (fun p => p = .dt ∨ p = .st) s s.tickTimers := by
  intro p hp
  cases p
  case dt => exact absurd (.inl rfl) hp
  case st => exact absurd (.inr rfl) hp
  all_goals rfl

/-- A run of `n` ticks takes `n` from each timer, down to 0. -/
theorem State.toNat_timers_acts_ticks (n : Nat) : ∀ s : State,
    (s.acts (List.replicate n .tickTimers)).dt.toNat = s.dt.toNat - n ∧
      (s.acts (List.replicate n .tickTimers)).st.toNat = s.st.toNat - n := by
  induction n with
  | zero => exact fun _ => ⟨rfl, rfl⟩
  | succ n ih =>
    intro s
    obtain ⟨hdt, hst⟩ := ih s.tickTimers
    rw [s.toNat_dt_tickTimers, Nat.sub_sub, Nat.add_comm] at hdt
    rw [s.toNat_st_tickTimers, Nat.sub_sub, Nat.add_comm] at hst
    exact ⟨hdt, hst⟩

/-- Settles O49: a tick is `countDown` on each timer, which takes 1 from the number and stops at 0; a run of ticks is by
induction on its length. -/
theorem ticksCountDownToZero : Obligations.TicksCountDownToZero := by
  intro s n
  have hdt := s.toNat_dt_tickTimers
  have hst := s.toNat_st_tickTimers
  exact ⟨changesOnly_tickTimers s, fun h => by omega, fun h => congrArg countDown h, fun h => by omega,
    fun h => congrArg countDown h, State.toNat_timers_acts_ticks n s⟩

/-! ### The keypad latches -/

theorem changesOnly_setKey (s : State) (k : KeyId) (p : Bool) :
    ChangesOnly (fun q => q = .key k) s (s.setKey k p) := by
  intro q hq
  cases q
  case key j =>
    have hj : j ≠ k := fun e => hq (e ▸ rfl)
    exact (s.keyPressed_setKey k j p).trans (if_neg hj)
  all_goals rfl

theorem State.skipIf_key (s : State) (taken : Bool) : (s.skipIf taken).key = s.key := by
  cases taken <;> rfl

theorem execLdVxK_key (x : Reg) (s : State) : Answers (execLdVxK x s) fun t => t.key = s.key := by
  unfold execLdVxK
  split <;> exact answers_next rfl

/-- No instruction writes a latch, whether it completes or raises (60_exceptions.md R243). -/
theorem exec_key (i : Instr) (s : State) : Answers (exec i s) fun t => t.key = s.key := by
  cases i with
  | ret => exact answers_commit_map (fun p hp => by rw [(State.pop_eq_ok hp).2]; rfl) fun _ => rfl
  | call => exact answers_commit_map (fun t ht => by rw [State.push_eq_ok ht]; rfl) fun _ => rfl
  | seImm | sneImm | seReg | sneReg => exact answers_next (s.skipIf_key _)
  | skp | sknp => exact answers_commit_map (fun _ _ => s.skipIf_key _) fun _ => rfl
  | drw | ldVMem => exact answers_commit_map (fun _ _ => rfl) fun _ => rfl
  | ldVxK x => exact execLdVxK_key x s
  | ldB | ldMemV => exact answers_commit (fun t ht => by rw [State.memWrite_eq_ok ht]) fun _ => rfl
  | cls | jp | jpV0 | ldImm | addImm | ldReg | orReg | andReg | xorReg | addReg | sub | shr | subn | shl | ldI | rnd
  | ldVxDt | ldDt | ldSt | addI | ldF => exact answers_next rfl

/-- Settles O50: set_key is one write of Key, which no instruction's operation writes and no snapshot holds. -/
theorem setKeyWritesOneLatchAndInstructionsNone : Obligations.SetKeyWritesOneLatchAndInstructionsNone :=
  ⟨fun s k p => ⟨(s.keyPressed_setKey k k p).trans (if_pos rfl), changesOnly_setKey s k p, rfl⟩,
    fun i s _ e => (exec_key i s).of_eq_next e, State.restore_key⟩

/-! ### Capture and restore -/

theorem State.capture_restore (s : State) (snap : Snapshot) : (s.restore snap).capture = snap := rfl

theorem State.restore_restore (s : State) (snap snap' : Snapshot) :
    (s.restore snap).restore snap' = s.restore snap' := rfl

/-- Settles O52: the answered snapshot is the captured one, and what a restore leaves in the captured fields does not
depend on the state it is applied to, so neither the actions between nor an earlier restore show there. -/
theorem restoreGivesBackWhatWasCaptured : Obligations.RestoreGivesBackWhatWasCaptured := by
  intro s l snap h
  obtain rfl : s.capture = snap := Answer.snapshot.inj h
  exact ⟨rfl, ⟨rfl, rfl, rfl, rfl, rfl, rfl, rfl, rfl⟩, State.restore_key _ _, State.restore_vis _ _,
    State.restore_halted _ _, State.restore_fault _ _, State.restore_restore _ _ _,
    congrArg Answer.snapshot (State.capture_restore _ _)⟩

end Sys2Proof.Machine
end

section
/-!
SUPPORT. Construction and load (70_reset_and_hazards.md R270 to R276): the font that construction writes, the two
outcomes of load, and what each leaves in memory.
-/

namespace Sys2Proof.Machine

/-! ### Construction -/

theorem construct_mem_wf (cfg : Config) : Memory.wf (State.construct cfg).mem :=
  Memory.wf_writeBytes _ _ _ Memory.wf_nil

/-- The font of the parameters is at 0x000..0x04F (10_state.md R27). -/
theorem read_construct_mem (cfg : Config) {a : Nat} (ha : a < 80) :
    Memory.read (State.construct cfg).mem a = cfg.font[a] := by
  have hfont : cfg.font.toList[a]? = some cfg.font[a] := by simp [ha]
  have hread := Memory.read_writeBytes_add (a := 0) Memory.wf_nil (by simp) hfont
  rwa [Nat.zero_add] at hread

/-! ### Load -/

/-- The bytes below a write that stays below 0x1000 are as before. -/
theorem Memory.read_writeBytes_of_lt {m : Memory} {a a' : Nat} {bs : List Byte} (hm : Memory.wf m)
    (hl : a + bs.length ≤ 4096) (ha : a' < a) : Memory.read (Memory.writeBytes m a bs) a' = Memory.read m a' := by
  rw [Memory.read_writeBytes bs m a hm hl, if_neg (Nat.not_le.2 ha)]

/-- load writes the ROM, or fails past 3584 bytes (70_reset_and_hazards.md R272). -/
theorem State.load_cases (s : State) (bytes : List Byte) :
    (bytes.length ≤ 3584 ∧ s.load bytes = .next { s with mem := Memory.writeBytes s.mem 0x200 bytes }) ∨
    (3584 < bytes.length ∧ s.load bytes = .fault (.capacityExceeded bytes.length)) := by
  unfold State.load maxRom
  split
  · exact .inr ⟨‹_›, rfl⟩
  · exact .inl ⟨Nat.not_lt.1 ‹_›, rfl⟩

theorem State.load_of_length_le (s : State) {bytes : List Byte} (hl : bytes.length ≤ 3584) :
    s.load bytes = .next { s with mem := Memory.writeBytes s.mem 0x200 bytes } := by
  obtain ⟨-, e⟩ | ⟨hlong, -⟩ := s.load_cases bytes
  · exact e
  · omega

theorem State.load_eq_next {s t : State} {bytes : List Byte} (h : s.load bytes = .next t) :
    bytes.length ≤ 3584 ∧ t = { s with mem := Memory.writeBytes s.mem 0x200 bytes } := by
  obtain ⟨hl, e⟩ | ⟨-, e⟩ := s.load_cases bytes <;> rw [e] at h
  · exact ⟨hl, (Host.Outcome.next.inj h).symm⟩
  · cases h

theorem State.answer_load (s : State) (bytes : List Byte) :
    s.answer (.load bytes) = if maxRom < bytes.length then .capacityExceeded else .done := rfl

/-- Settles O17: construction's one write starts at 0x000, and load's one write starts at 0x200. -/
theorem constructionWritesTheFontAndLoadNeverDoes : Obligations.ConstructionWritesTheFontAndLoadNeverDoes := by
  refine ⟨fun cfg _ ha => read_construct_mem cfg ha, fun s t bytes hm hload a ha => ?_⟩
  obtain ⟨hl, rfl⟩ := State.load_eq_next hload
  exact Memory.read_writeBytes_of_lt hm (by omega) ha

/-- Settles O51: a ROM of at most 3584 bytes ends at 0xFFF at the latest, so that load's write is in range. -/
theorem loadCopiesTheRomOrFails : Obligations.LoadCopiesTheRomOrFails := by
  intro s bytes hm
  rw [State.answer_load, State.act_load]
  refine ⟨fun hl => ?_, fun hl => ⟨if_pos hl, if_pos hl⟩⟩
  have hfits : ¬ maxRom < bytes.length := Nat.not_lt.2 hl
  rw [if_neg hfits, if_neg hfits]
  exact ⟨rfl, fun k b hk => Memory.read_writeBytes_add hm (by omega) hk,
    changesOnly_writeBytes s hm 0x200 bytes (by omega)⟩

/-- Settles O18: load's write leaves PC where construction set it, at the address it starts at, and leaves the font
below it. -/
theorem bootStartsAtTheFirstRomWord : Obligations.BootStartsAtTheFirstRomWord := by
  intro cfg hi lo rest hrest
  have hlen : (hi :: lo :: rest).length ≤ 3584 := by simp only [List.length_cons]; omega
  have hm : Memory.wf (State.construct cfg).mem := construct_mem_wf cfg
  refine ⟨_, State.load_of_length_le _ hlen, rfl, rfl, rfl, ?_, fun a ha => ?_⟩
  · have hhi := Memory.read_writeBytes_add (a := 0x200) (k := 0) hm (by omega) (rfl : (hi :: lo :: rest)[0]? = some hi)
    have hlo := Memory.read_writeBytes_add (a := 0x200) (k := 1) hm (by omega) (rfl : (hi :: lo :: rest)[1]? = some lo)
    refine (State.fetch_eq_some ?_).trans (congrArg some (congrArg₂ wordOfBytes hhi hlo))
    exact show 0x200 ≤ 0xFFE by decide
  · rw [Memory.read_writeBytes_of_lt hm (by omega) (by omega), read_construct_mem cfg ha]
    simp [List.getD, ha]

end Sys2Proof.Machine
end

section
/-!
SUPPORT. The key wait as a whole step (45_timers_keypad.md R203; 70_reset_and_hazards.md R285): from a running machine
about to run Fx0A, a step with no key pressed changes nothing, and a step with a key pressed completes.
-/

namespace Sys2Proof.Machine

/-- A run of one action that changes nothing changes nothing. -/
theorem State.acts_replicate_of_act_eq {s : State} {a : Action} (h : s.act a = s) (n : Nat) :
    s.acts (List.replicate n a) = s := by
  induction n with
  | zero => rfl
  | succ n ih => rw [List.replicate_succ, State.acts_cons, h, ih]

theorem State.hostStep_of_step_eq {s t : State} (h : step s = .next t) : s.hostStep = t := by
  rw [State.hostStep, h]

/-- The rewind of a waiting Fx0A undoes the provisional PC. -/
theorem State.setPc_provisional (s : State) : s.provisional.setPc (s.provisional.pc - 2) = s := by
  rw [State.provisional_pc, BitVec.add_sub_cancel]
  rfl

section
variable {s : State} {x : Reg}

theorem step_of_fetch_ldVxK (hrunning : s.halted = false) (hfetch : s.fetch = some (encode (.ldVxK x))) :
    step s = execLdVxK x s.provisional :=
  step_eq_exec hrunning hfetch (decode_encode _)

theorem hostStep_ldVxK_of_no_key (hrunning : s.halted = false) (hfetch : s.fetch = some (encode (.ldVxK x)))
    (hnone : ∀ j, s.keyPressed j = false) : s.hostStep = s := by
  refine State.hostStep_of_step_eq ?_
  rw [step_of_fetch_ldVxK hrunning hfetch,
    execLdVxK_of_lowestKey_eq_none x (State.lowestKey_eq_none (s := s.provisional) hnone), State.setPc_provisional]

/-- A press while no other key is pressed completes the wait. -/
theorem hostStep_ldVxK_of_setKey (hrunning : s.halted = false) (hfetch : s.fetch = some (encode (.ldVxK x)))
    (hnone : ∀ j, s.keyPressed j = false) (k : KeyId) :
    (s.setKey k true).hostStep = (s.setKey k true).provisional.writeV x (BitVec.ofNat 8 k.val) := by
  have hlowest : (s.setKey k true).provisional.lowestKey = some k := by
    refine State.lowestKey_eq_some ?_ fun j hj => ?_
    · rw [State.keyPressed_provisional, State.keyPressed_setKey, if_pos rfl]
    · rw [State.keyPressed_provisional, State.keyPressed_setKey, if_neg hj.ne, hnone]
  refine State.hostStep_of_step_eq ?_
  rw [step_of_fetch_ldVxK (s := s.setKey k true) hrunning hfetch, execLdVxK_of_lowestKey_eq_some x hlowest]

end

/-- Settles O48: a waiting step is a fixed point, so any number of them is none; the press is the only key, and the step
after it writes Vx at the provisional PC. -/
theorem keyWaitRepeatsUntilAKeyIsPressed : Obligations.KeyWaitRepeatsUntilAKeyIsPressed := by
  intro s x k hrunning hfetch hnone n
  have hwait : s.acts (List.replicate n .step) = s :=
    State.acts_replicate_of_act_eq (a := .step) (hostStep_ldVxK_of_no_key hrunning hfetch hnone) n
  have hpress : s.acts (List.replicate n .step ++ [.setKey k true, .step]) =
      (s.setKey k true).provisional.writeV x (BitVec.ofNat 8 k.val) := by
    rw [State.acts_append, hwait]
    exact hostStep_ldVxK_of_setKey hrunning hfetch hnone k
  refine ⟨hwait, ?_, ?_, ?_⟩
  · rw [driverPeriod, State.acts_append, hwait]
    rfl
  · rw [hpress, State.readV_writeV_self, BitVec.toNat_ofNat]
    omega
  · rw [hpress]
    rfl

end Sys2Proof.Machine
end

section
/-!
SUPPORT. The faults a step raises (60_exceptions.md R220, R230, R232): from every state an instruction completes with
the halt as it was, or takes exactly the fault the table gives it, and so does a step of a running machine.
-/

namespace Sys2Proof.Machine

/-! ### The cause of each access -/

/-- What an access raised. -/
def raised {α : Type} : Except Cause α → Option Cause
  | .ok _ => none
  | .error c => some c

theorem raised_map {α β : Type} (r : Except Cause α) (f : α → β) : raised (r.map f) = raised r := by
  cases r <;> rfl

/-- The cause of a load, `past` being any form of "the last byte is past the end of memory". -/
theorem raised_memRead (s : State) (addr : Word) (n : Nat) {past : Prop} [Decidable past]
    (hpast : past ↔ 0 < n ∧ 4096 < addr.toNat + n) :
    raised (s.memRead addr n) = if past then some (.dataOutOfRange, .addr addr) else none := by
  obtain ⟨hin, e⟩ | ⟨hn, hl, e⟩ := State.memRead_cases s addr n <;> rw [e]
  · exact (if_neg fun hp => by have := hpast.1 hp; omega).symm
  · exact (if_pos (hpast.2 ⟨hn, hl⟩)).symm

/-- The cause of a store of at least one byte, `past` being any form of "the last byte is past the end of memory". -/
theorem raised_memWrite (s : State) (addr : Word) {bs : List Byte} (hb : 0 < bs.length) {past : Prop} [Decidable past]
    (hpast : past ↔ 4096 < addr.toNat + bs.length) :
    raised (s.memWrite addr bs) =
      if past then some (.dataOutOfRange, .addr addr)
      else if s.cfg.reservedWrite = .fault ∧ addr.toNat ≤ 0x1FF then some (.reservedWrite, .addr addr)
      else none := by
  cases hr : s.memWrite addr bs with
  | error c => exact (State.memWrite_eq_error hpast hr).symm
  | ok t =>
    obtain ⟨hl, hfree, -⟩ | ⟨-, e⟩ | ⟨-, -, -, e⟩ := State.memWrite_cases s addr bs hb
    · rw [if_neg (mt hpast.1 (Nat.not_lt.2 hl)), if_neg hfree]
      rfl
    · cases e.symm.trans hr
    · cases e.symm.trans hr

theorem raised_push (s : State) (a : Word) :
    raised (s.push a) = if s.cfg.stackLimit = some s.stack.length then some (.stackOverflow, .none) else none := by
  obtain ⟨hroom, e⟩ | ⟨hfull, e⟩ := State.push_cases s a <;> rw [e]
  · exact (if_neg hroom).symm
  · exact (if_pos hfull).symm

theorem raised_pop (s : State) :
    raised s.pop = if s.stack = [] then some (.stackUnderflow, .none) else none := by
  obtain ⟨hs, e⟩ | ⟨r, rest, hs, e⟩ := State.pop_cases s <;> rw [e]
  · exact (if_pos hs).symm
  · exact (if_neg (by simp [hs])).symm

theorem raised_keyOperand (b : Byte) :
    raised (keyOperand b) = if 15 < b.toNat then some (.keyIndexOutOfRange, .key b) else none := by
  obtain ⟨hb, e⟩ | ⟨hb, e⟩ := keyOperand_cases b <;> rw [e]
  · exact (if_neg (by omega)).symm
  · exact (if_pos hb).symm

/-! ### Every instruction raises the table's fault -/

/-- Halted and the record are as they were. -/
def KeepsHalt (s t : State) : Prop := t.halted = s.halted ∧ t.fault = s.fault

/-- From `s`, `t` is a completed end with nothing to raise, or the entry of the fault to be raised, taken at `a` with the
word `w`. -/
def EndsWithFault (cause : Option Cause) (s t : State) (a : Word) (w : Option Word) : Prop :=
  (cause = none ∧ KeepsHalt s t) ∨ ∃ c, cause = some c ∧ t = s.takeFault a w c

/-- The fault table holds of instruction `i`, started in `s` with the provisional PC and ended in `t`. -/
def EndsAsFaultTable (i : Instr) (s t : State) : Prop :=
  EndsWithFault (instrRaises i s) s t (s.pc - 2) (some (encode i))

section
variable {i : Instr} {s : State}

theorem answers_endsAsFaultTable {t : State} (htable : instrRaises i s = none) (ht : KeepsHalt s t) :
    Answers (.next t) (EndsAsFaultTable i s) := answers_next (.inl ⟨htable, ht⟩)

/-- A commit of an access that raises what the table says. -/
theorem commit_endsAsFaultTable {r : Except Cause State} (htable : raised r = instrRaises i s)
    (hok : ∀ t, r = .ok t → KeepsHalt s t) : Answers (s.commit i r) (EndsAsFaultTable i s) := by
  cases r with
  | ok t => exact answers_endsAsFaultTable htable.symm (hok t rfl)
  | error c => exact answers_next (.inr ⟨c, htable.symm, rfl⟩)

theorem commit_map_endsAsFaultTable {α : Type} {r : Except Cause α} {f : α → State}
    (htable : raised r = instrRaises i s) (hok : ∀ a, r = .ok a → KeepsHalt s (f a)) :
    Answers (s.commit i (r.map f)) (EndsAsFaultTable i s) := by
  refine commit_endsAsFaultTable ((raised_map r f).trans htable) fun t ht => ?_
  cases r with
  | ok a => exact Except.ok.inj ht ▸ hok a rfl
  | error c => cases ht

end

theorem keepsHalt_skipIf (s : State) (taken : Bool) : KeepsHalt s (s.skipIf taken) := by
  cases taken <;> exact ⟨rfl, rfl⟩

theorem keepsHalt_memWrite {s t : State} {addr : Word} {bs : List Byte} (h : s.memWrite addr bs = .ok t) :
    KeepsHalt s t := by
  rw [State.memWrite_eq_ok h]
  exact ⟨rfl, rfl⟩

theorem execRet_endsAsFaultTable (s : State) : Answers (execRet s) (EndsAsFaultTable .ret s) := by
  refine commit_map_endsAsFaultTable (raised_pop s) fun p hp => ?_
  rw [(State.pop_eq_ok hp).2]
  exact ⟨rfl, rfl⟩

theorem execCall_endsAsFaultTable (nnn : BitVec 12) (s : State) :
    Answers (execCall nnn s) (EndsAsFaultTable (.call nnn) s) := by
  refine commit_map_endsAsFaultTable (raised_push s s.pc) fun t ht => ?_
  rw [State.push_eq_ok ht]
  exact ⟨rfl, rfl⟩

theorem execLdVxK_endsAsFaultTable (x : Reg) (s : State) :
    Answers (execLdVxK x s) (EndsAsFaultTable (.ldVxK x) s) := by
  unfold execLdVxK
  split <;> exact answers_endsAsFaultTable rfl ⟨rfl, rfl⟩

/-- Every instruction, from every state, raises what the table gives it and nothing else. -/
theorem exec_endsAsFaultTable (i : Instr) (s : State) : Answers (exec i s) (EndsAsFaultTable i s) := by
  cases i with
  | ret => exact execRet_endsAsFaultTable s
  | call nnn => exact execCall_endsAsFaultTable nnn s
  | seImm | sneImm | seReg | sneReg => exact answers_endsAsFaultTable rfl (keepsHalt_skipIf s _)
  | skp | sknp => exact commit_map_endsAsFaultTable (raised_keyOperand _) fun _ _ => keepsHalt_skipIf s _
  | drw | ldVMem => exact commit_map_endsAsFaultTable (raised_memRead s s.i _ (by omega)) fun _ _ => ⟨rfl, rfl⟩
  | ldB =>
    have hlen (b : Byte) : (bcdDigits b).length = 3 := length_bcdDigits b
    exact commit_endsAsFaultTable (raised_memWrite s s.i (by simp) (by rw [hlen]; omega))
      fun _ ht => keepsHalt_memWrite ht
  | ldMemV x =>
    have hlen : (s.registersUpTo x).length = x.val + 1 := s.length_registersUpTo x
    exact commit_endsAsFaultTable (raised_memWrite s s.i (by omega) (by omega)) fun _ ht => keepsHalt_memWrite ht
  | ldVxK x => exact execLdVxK_endsAsFaultTable x s
  | cls | jp | jpV0 | ldImm | addImm | ldReg | orReg | andReg | xorReg | addReg | sub | shr | subn | shl | ldI | rnd
  | ldVxDt | ldDt | ldSt | addI | ldF => exact answers_endsAsFaultTable rfl ⟨rfl, rfl⟩

/-- Settles O8: every instruction's meaning ends in a completed state or in a fault taken, and so does every stage
before execute. -/
theorem everyStepAnswersNext : Obligations.EveryStepAnswersNext := by
  have hexec (i : Instr) (s : State) : Answers (exec i s) fun _ => True := by
    obtain ⟨t, e, -⟩ := exec_endsAsFaultTable i s
    exact ⟨t, e, trivial⟩
  refine ⟨fun s => ?_, fun i s => ?_⟩
  · obtain ⟨t, e, -⟩ : Answers (step s) fun _ => True :=
      step_answers (fun _ => trivial) (fun _ _ _ => trivial) fun i _ _ => hexec i s.provisional
    exact ⟨t, e⟩
  · obtain ⟨t, e, -⟩ := hexec i s
    exact ⟨t, e⟩

/-! ### A step of a running machine raises the table's fault -/

section
variable {s : State} {w : Word}

theorem State.raises_of_pc_gt (hpc : 0xFFE < s.pc.toNat) : s.raises = some (.fetchOutOfRange, .addr s.pc) :=
  if_pos hpc

theorem State.raises_of_decode_eq_none (hpc : s.pc.toNat ≤ 0xFFE) (hf : s.fetch = some w) (hd : decode w = none) :
    s.raises = some (.illegalInstruction, .word w) := by
  obtain rfl := Option.some.inj ((State.fetch_eq_some hpc).symm.trans hf)
  simp only [State.raises, if_neg (Nat.not_lt.2 hpc), hd]

theorem State.raises_of_decode_eq_some {i : Instr} (hpc : s.pc.toNat ≤ 0xFFE) (hf : s.fetch = some w)
    (hd : decode w = some i) : s.raises = instrRaises i s := by
  obtain rfl := Option.some.inj ((State.fetch_eq_some hpc).symm.trans hf)
  simp only [State.raises, if_neg (Nat.not_lt.2 hpc), hd]

end

/-- Before the provisional PC is set, the fault table reads the same. -/
theorem instrRaises_provisional (i : Instr) (s : State) : instrRaises i s.provisional = instrRaises i s := rfl

/-- A fault of the execute stage is taken at the fetch address, as one of fetch or decode is (60_exceptions.md R230). -/
theorem State.takeFault_provisional (s : State) (w : Option Word) (c : Cause) :
    s.provisional.takeFault (s.provisional.pc - 2) w c = s.takeFault s.pc w c := by
  rw [State.provisional_pc, BitVec.add_sub_cancel]
  rfl

/-- The stages in order: a fault of fetch, a fault of decode, or the end of the decoded instruction. -/
theorem step_endsWithFault {s : State} (hrunning : s.halted = false) :
    Answers (step s) fun t => EndsWithFault s.raises s t s.pc s.fetch := by
  obtain ⟨hh, -⟩ | ⟨-, hpc, e⟩ | ⟨w, -, hpc, hf, hd, e⟩ | ⟨w, i, -, hpc, hf, hd, -⟩ := State.front_cases s
  · cases hh.symm.trans hrunning
  · rw [State.fetch_eq_none.2 hpc]
    exact ⟨_, step_eq_next_of_front_error e, .inr ⟨_, State.raises_of_pc_gt hpc, rfl⟩⟩
  · rw [hf]
    exact ⟨_, step_eq_next_of_front_error e, .inr ⟨_, State.raises_of_decode_eq_none hpc hf hd, rfl⟩⟩
  · obtain ⟨t, ht, hend⟩ := exec_endsAsFaultTable i s.provisional
    refine ⟨t, (step_eq_exec hrunning hf hd).trans ht, ?_⟩
    rw [State.raises_of_decode_eq_some hpc hf hd, hf]
    obtain ⟨hnone, hkeep⟩ | ⟨c, hc, rfl⟩ := hend
    · exact .inl ⟨hnone, hkeep⟩
    · exact .inr ⟨c, hc, by rw [encode_of_decode hd, State.takeFault_provisional]⟩

/-- Settles O13: a step that halts a running machine did not keep the halt, so it ended in the fault entry. -/
theorem faultsArePrecise : Obligations.FaultsArePrecise := by
  intro s t hrunning hstep hhalted
  obtain ⟨-, hkeep, -⟩ | ⟨c, -, rfl⟩ := (step_endsWithFault hrunning).of_eq_next hstep
  · cases hhalted.symm.trans (hkeep.trans hrunning)
  · exact ⟨rfl, c.1, c.2, rfl⟩

/-- Settles O14: both ends of a step agree with the table, a completed one leaving Halted 0 and no record. -/
theorem stepRaisesExactlyTheFaultTable : Obligations.StepRaisesExactlyTheFaultTable := by
  intro s hrunning hnofault
  obtain ⟨t, hstep, hend⟩ := step_endsWithFault hrunning
  refine ⟨t, hstep, ?_⟩
  obtain ⟨hnone, hhalted, hfault⟩ | ⟨c, hc, rfl⟩ := hend
  · rw [hnone, hhalted, hfault]
    exact ⟨hrunning, hnofault⟩
  · rw [hc]
    exact ⟨rfl, rfl⟩

/-- Settles O11: the fetch raises before a word is read. -/
theorem fetchPastTheEndFaults : Obligations.FetchPastTheEndFaults :=
  fun _ hrunning hpc => step_fetchOutOfRange hrunning rfl hpc

/-- Settles O12: the decoder refuses exactly the words outside the list. -/
theorem illegalWordFaults : Obligations.IllegalWordFaults :=
  fun _ _ hrunning hfetch hillegal => step_illegalInstruction hrunning hfetch hillegal

/-! ### Fixed points -/

theorem step_of_halted {s : State} (hh : s.halted = true) : step s = .next s := by
  obtain ⟨-, e⟩ | ⟨hrunning, -⟩ | ⟨w, hrunning, -⟩ | ⟨w, i, hrunning, -⟩ := State.front_cases s
  · exact step_eq_next_of_front_error e
  all_goals cases hh.symm.trans hrunning

theorem State.hostStep_of_halted {s : State} (hh : s.halted = true) : s.hostStep = s :=
  State.hostStep_of_step_eq (step_of_halted hh)

theorem State.report_of_halted {s : State} (hh : s.halted = true) : s.report = s.fault := if_pos hh

/-- Settles O9: the state after the step, which the report reads, is the halted one before it. -/
theorem haltedStepChangesNothing : Obligations.HaltedStepChangesNothing := by
  refine fun s hh => ⟨step_of_halted hh, State.hostStep_of_halted hh, fun r hr => ?_⟩
  have hreport : (s.act .step).report = some r := by
    rw [State.act, State.hostStep_of_halted hh, State.report_of_halted hh, hr]
  simp only [State.answer, hreport]

/-- A PC inside memory is the zero-extension of its low 12 bits. -/
theorem addressOperand_setWidth {a : Word} (ha : a.toNat ≤ 0xFFF) : addressOperand (a.setWidth 12) = a := by
  refine BitVec.eq_of_toNat_eq ?_
  rw [toNat_addressOperand, BitVec.toNat_setWidth]
  omega

/-- The word of the jump to a 12-bit address. -/
theorem encode_jp_setWidth {a : Word} (ha : a.toNat ≤ 0xFFF) : encode (.jp (a.setWidth 12)) = 0x1000 ||| a := by
  calc encode (.jp (a.setWidth 12)) = 0x1000 ||| addressOperand (a.setWidth 12) := rfl
    _ = 0x1000 ||| a := by rw [addressOperand_setWidth ha]

/-- Settles O59: a halted machine is a fixed point, and so is a running one at the jump to its own PC. -/
theorem endOfRunIsAFixedPoint : Obligations.EndOfRunIsAFixedPoint := by
  intro s hend
  cases hh : s.halted with
  | true => exact step_of_halted hh
  | false =>
    obtain ⟨hpc, hfetch⟩ : s.pc.toNat ≤ 0xFFF ∧ s.fetch = some (0x1000 ||| s.pc) := by
      simpa [State.endOfRun, hh] using hend
    exact step_jp_self hh (addressOperand_setWidth hpc).symm (encode_jp_setWidth hpc ▸ hfetch)

end Sys2Proof.Machine
end

section
/-!
SUPPORT. The halt under the host's actions (60_exceptions.md R231, R235): no action but a step reads it, and none but
restore and construction ends it.
-/

namespace Sys2Proof.Machine

/-! ### Host actions do not see the halt -/

/-- The state with Halted and Fault replaced. -/
def State.withHalt (s : State) (h : Bool) (f : Option FaultRecord) : State := { s with halted := h, fault := f }

theorem State.act_load_withHalt (s : State) (h : Bool) (f : Option FaultRecord) (bytes : List Byte) :
    (s.withHalt h f).act (.load bytes) = (s.act (.load bytes)).withHalt h f := by
  rw [State.act_load, State.act_load, apply_ite (State.withHalt · h f)]
  rfl

/-- Settles O10: each of the actions commutes with replacing Halted and Fault, which no answer of theirs and no snapshot
holds. -/
theorem hostActionsIgnoreTheHalt : Obligations.HostActionsIgnoreTheHalt := by
  refine fun s h f => ⟨fun a ha => ?_, rfl, fun snap => ⟨rfl, rfl, rfl⟩⟩
  obtain rfl | ⟨k, p, rfl⟩ | ⟨bytes, rfl⟩ | ⟨frame, e, rfl⟩ := ha
  · exact ⟨rfl, rfl⟩
  · exact ⟨rfl, rfl⟩
  · exact ⟨s.act_load_withHalt h f bytes, rfl⟩
  · exact ⟨rfl, rfl⟩

/-! ### What ends the halt -/

/-- `t` is halted with the record, V, I, PC, the stack and FB of `s`. -/
def StaysHalted (s t : State) : Prop :=
  t.halted = true ∧ t.fault = s.fault ∧ t.v = s.v ∧ t.i = s.i ∧ t.pc = s.pc ∧ t.stack = s.stack ∧ t.fb = s.fb

theorem StaysHalted.refl {s : State} (hh : s.halted = true) : StaysHalted s s := ⟨hh, rfl, rfl, rfl, rfl, rfl, rfl⟩

theorem StaysHalted.trans {s t u : State} (h : StaysHalted s t) (h' : StaysHalted t u) : StaysHalted s u := by
  obtain ⟨-, hfault, hv, hi, hpc, hstack, hfb⟩ := h
  obtain ⟨hh, hfault', hv', hi', hpc', hstack', hfb'⟩ := h'
  exact ⟨hh, hfault'.trans hfault, hv'.trans hv, hi'.trans hi, hpc'.trans hpc, hstack'.trans hstack, hfb'.trans hfb⟩

/-- An action that does not end the halt writes at most Mem, DT, ST, Key and Vis of a halted machine. -/
theorem staysHalted_act {s : State} {a : Action} (hh : s.halted = true) (ha : a.endsHalt = false) :
    StaysHalted s (s.act a) := by
  cases a with
  | step =>
    have hstep : s.act .step = s := State.hostStep_of_halted hh
    rw [hstep]
    exact StaysHalted.refl hh
  | load bytes =>
    rw [State.act_load]
    split <;> exact ⟨hh, rfl, rfl, rfl, rfl, rfl, rfl⟩
  | restore | construct => cases ha
  | tickTimers | setKey | capture | readFb | readDt | readSoundActive | composite =>
    exact ⟨hh, rfl, rfl, rfl, rfl, rfl, rfl⟩

theorem staysHalted_acts (l : List Action) : ∀ s : State, s.halted = true → (∀ a ∈ l, a.endsHalt = false) →
    StaysHalted s (s.acts l) := by
  induction l with
  | nil => exact fun _ hh _ => StaysHalted.refl hh
  | cons a l ih =>
    intro s hh hl
    obtain ⟨ha, hl⟩ := List.forall_mem_cons.1 hl
    have hact : StaysHalted s (s.act a) := staysHalted_act hh ha
    exact hact.trans (ih (s.act a) hact.1 hl)

/-- Settles O15: by induction on the actions, each of which leaves the machine halted as it was. -/
theorem haltLastsUntilRestoreOrConstruction : Obligations.HaltLastsUntilRestoreOrConstruction :=
  fun s l hh hl => staysHalted_acts l s hh hl

end Sys2Proof.Machine
end

section
/-!
SUPPORT. Reset (10_state.md R43): the contents of memory after construction, and the invariant right after it.
-/

namespace Sys2Proof.Machine

theorem resetByte_eq_dite (a : Nat) : resetByte a = if h : a < 80 then Config.defaultFont[a] else 0 := by
  unfold resetByte
  split
  · next h => simp [h]
  · next h => simp [h]

/-- Construction writes nothing above the font, whatever the parameters (decision D10). -/
theorem read_construct_mem_of_ge (cfg : Config) {a : Nat} (ha : 80 ≤ a) :
    Memory.read (State.construct cfg).mem a = 0 := by
  have hfont : cfg.font.toList[a]? = none := by simp [ha]
  calc Memory.read (State.construct cfg).mem a
      = (cfg.font.toList[a]?).getD (Memory.read [] a) := by
        refine (Memory.read_writeBytes _ [] 0 Memory.wf_nil (by simp) a).trans (if_pos (Nat.zero_le a))
    _ = resetByte a := by rw [hfont]; rfl
    _ = 0 := by rw [resetByte_eq_dite, dif_neg (Nat.not_lt.2 ha)]

/-- Settles O16: reset writes every register, latch, pixel and intensity alike, and lists no byte of memory. -/
theorem resetLeavesTheTableValues : Obligations.ResetLeavesTheTableValues :=
  ⟨fun x => Vector.getElem_replicate x.isLt, rfl, rfl, rfl, rfl, rfl, resetByte_eq_dite,
    fun cfg _ ha => read_construct_mem_of_ge cfg ha, gridGet_replicate _, fun k => Vector.getElem_replicate k.isLt,
    gridGet_replicate _, rfl, rfl⟩

/-- A fresh machine over well-formed parameters and canonical memory satisfies the invariant. -/
theorem stateInv_fresh {cfg : Config} {mem : Memory} (hcfg : cfg.wellFormed = true) (hmem : Memory.wf mem) :
    StateInv (State.fresh cfg mem) where
  memory := hmem
  index := Nat.zero_le _
  pc := show 0x200 ≤ 0x10FE by decide
  stack := nofun
  halt := rfl
  record := nofun
  decay := hcfg
  vis x y := congrArg wellFormedIntensity (gridGet_replicate _ x y)

/-- Settles O19: the default decay factor is below 1.0. -/
theorem resetMeetsTheInvariant : Obligations.ResetMeetsTheInvariant :=
  have hcfg : Config.default.wellFormed = true := by decide
  stateInv_fresh hcfg Memory.wf_nil

end Sys2Proof.Machine
end

section
/-!
SUPPORT. Instruction-fetch coherence (20_memory.md R64): the word a fetch reads is made of the bytes last stored.
-/

namespace Sys2Proof.Machine

/-- Settles O41: the two bytes at the fetch address are those of the dump's two registers. -/
theorem storedBytesAreFetched : Obligations.StoredBytesAreFetched := by
  intro s x a k j hm hl hi ha hj hjx
  have hkj : k.val + 1 ≤ x.val := hj ▸ Fin.le_def.1 hjx
  obtain ⟨-, hdump⟩ := dumpStoresTheRegisters x
  obtain ⟨hstores, -, -⟩ := hdump s hm
  obtain ⟨t, hexec, hread, -⟩ := hstores hl fun _ => hi
  have hhi : Memory.read t.mem a.toNat = s.readV k := ha ▸ hread k (Fin.le_def.2 (by omega))
  have hlo : Memory.read t.mem (a.toNat + 1) = s.readV j := by
    rw [ha, Nat.add_assoc, ← hj]
    exact hread j hjx
  refine ⟨t, hexec, ?_⟩
  calc (t.setPc a).fetch
      = some (wordOfBytes (Memory.read t.mem a.toNat) (Memory.read t.mem (a.toNat + 1))) :=
        State.fetch_eq_some (s := t.setPc a) (show a.toNat ≤ 0xFFE by omega)
    _ = some (s.readV k ++ s.readV j) := by rw [hhi, hlo]; rfl

end Sys2Proof.Machine
end

section
/-!
SUPPORT. The intensity product is exact rounding (44_display.md R183): the model's rounding is the nearest binary64
value, a tie to the even significand, and a product that binary64 holds is not changed by it.
-/

namespace Sys2Proof.Machine

/-! ### Rounding to a whole number -/

theorem roundHalfEven_mul_self (m : Nat) {d : Nat} (hd : 0 < d) : roundHalfEven (m * d) d = m := by
  rw [roundHalfEven, Nat.mul_mod_left, if_pos (by omega), Nat.mul_div_cancel m hd]

theorem le_roundHalfEven {n d q : Nat} (hd : 0 < d) (h : q * d ≤ n) : q ≤ roundHalfEven n d := by
  have hq : q ≤ n / d := (Nat.le_div_iff_mul_le hd).2 h
  unfold roundHalfEven
  split_ifs <;> omega

/-- How far `x` is from `n`. -/
def distance (n x : Nat) : Nat := ((x : Int) - n).natAbs

theorem distance_lt_of_lt {n x y : Nat} (hxy : x < y) (hyn : y ≤ n) : distance n y < distance n x := by
  unfold distance
  omega

/-- Rounding moves a value by half a unit at most, and by exactly half only to an even number. -/
theorem distance_roundHalfEven (n : Nat) {d : Nat} (hd : 0 < d) :
    2 * distance n (roundHalfEven n d * d) ≤ d ∧
      (2 * distance n (roundHalfEven n d * d) = d → roundHalfEven n d % 2 = 0) := by
  have hn : n / d * d + n % d = n := Nat.div_add_mod' n d
  have hr : n % d < d := Nat.mod_lt n hd
  have hsucc : (n / d + 1) * d = n / d * d + d := Nat.succ_mul _ _
  unfold roundHalfEven distance
  split_ifs
  · omega
  · omega
  · obtain heven | hodd := Nat.mod_two_eq_zero_or_one (n / d)
    · rw [heven, Nat.add_zero]
      omega
    · rw [hodd]
      omega

/-- The rounded multiple of `d` is the nearest to `n`; where another is as near, its number is even: two multiples of `d`
are at least `d` apart. -/
theorem roundHalfEven_nearest (n k : Nat) {d : Nat} (hd : 0 < d) :
    distance n (roundHalfEven n d * d) ≤ distance n (k * d) ∧
      (distance n (roundHalfEven n d * d) = distance n (k * d) →
        k = roundHalfEven n d ∨ roundHalfEven n d % 2 = 0) := by
  obtain ⟨hhalf, heven⟩ := distance_roundHalfEven n hd
  generalize roundHalfEven n d = q at hhalf heven
  have apart : ∀ {a b : Nat}, a < b → a * d + d ≤ b * d := fun {a b} h =>
    Nat.succ_mul a d ▸ Nat.mul_le_mul_right d h
  unfold distance at *
  obtain hlt | rfl | hlt := Nat.lt_trichotomy k q
  · have := apart hlt
    omega
  · exact ⟨le_rfl, fun _ => .inl rfl⟩
  · have := apart hlt
    omega

/-! ### The rounded pattern -/

theorem mul_two_pow_mul_two_pow (m k c : Nat) : m * 2 ^ k * 2 ^ c = m * 2 ^ (c + k) := by
  rw [Nat.pow_add, Nat.mul_assoc, Nat.mul_comm (2 ^ k)]

/-- The value of a pattern `k * 2^52 + m`, also where the significand `m` has carried into the exponent. -/
theorem intensityUnits_of_toNat_eq {z : Intensity} {m k : Nat} (hz : z.toNat = k * 2 ^ 52 + m) (hm : m ≤ 2 ^ 53)
    (hk : k = 0 ∨ 2 ^ 52 ≤ m) : intensityUnits z = m * 2 ^ k := by
  unfold intensityUnits
  split_ifs with hexp
  · obtain rfl : k = 0 := by omega
    omega
  · obtain rfl | hlt := Nat.eq_or_lt_of_le hm
    · have hmod : z.toNat % 2 ^ 52 = 0 := by omega
      have hdiv : z.toNat / 2 ^ 52 - 1 = k + 1 := by omega
      rw [hmod, hdiv, Nat.add_zero, ← Nat.pow_add, ← Nat.pow_add, Nat.add_left_comm, Nat.add_comm k]
    · have hmod : 2 ^ 52 + z.toNat % 2 ^ 52 = m := by omega
      have hdiv : z.toNat / 2 ^ 52 - 1 = k := by omega
      rw [hmod, hdiv]

/-- A value that loses bits has a full significand. -/
theorem le_of_roundingShift_ne_zero {n : Nat} (h : roundingShift n ≠ 0) :
    2 ^ 52 * 2 ^ (1074 + roundingShift n) ≤ n := by
  have hlog : n.log2 = 52 + (1074 + roundingShift n) := by unfold roundingShift at h ⊢; omega
  have hn : n ≠ 0 := by rintro rfl; exact h rfl
  rw [← Nat.pow_add, ← hlog]
  exact Nat.log2_self_le hn

section
variable {n : Nat}

/-- The pattern of a value of at most `2^2148`, the product of two values at most 1.0, fits 64 bits. -/
theorem toNat_roundToIntensity (hn : n < 2 ^ (1127 + 1022)) :
    (roundToIntensity n).toNat =
      roundingShift n * 2 ^ 52 + roundHalfEven n (2 ^ (1074 + roundingShift n)) := by
  have hshift := roundingShift_le hn
  have hsig := roundHalfEven_le_two_pow n
  rw [roundToIntensity, BitVec.toNat_ofNat, Nat.mod_eq_of_lt (by omega)]

theorem intensityUnits_roundToIntensity (hn : n < 2 ^ (1127 + 1022)) :
    intensityUnits (roundToIntensity n) =
      roundHalfEven n (2 ^ (1074 + roundingShift n)) * 2 ^ roundingShift n := by
  refine intensityUnits_of_toNat_eq (toNat_roundToIntensity hn) (roundHalfEven_le_two_pow n) ?_
  exact (Nat.eq_zero_or_pos _).imp_right fun h =>
    le_roundHalfEven (Nat.two_pow_pos _) (le_of_roundingShift_ne_zero h.ne')

end

/-! ### Values that binary64 holds -/

theorem roundingShift_mul_two_pow {m k : Nat} (hm : m < 2 ^ 53) (hk : k = 0 ∨ 2 ^ 52 ≤ m) :
    roundingShift (m * 2 ^ (1074 + k)) = k := by
  refine Nat.le_antisymm (roundingShift_le ?_) ?_
  · rw [show 1127 + k = 53 + (1074 + k) by omega, Nat.pow_add 2 53]
    exact Nat.mul_lt_mul_of_pos_right hm (Nat.two_pow_pos _)
  · obtain rfl | hm' := hk
    · exact Nat.zero_le _
    · have hle : 2 ^ (52 + (1074 + k)) ≤ m * 2 ^ (1074 + k) := by
        rw [Nat.pow_add]
        exact Nat.mul_le_mul_right _ hm'
      have hlog := (Nat.le_log2 (by positivity)).2 hle
      unfold roundingShift
      omega

/-- Rounding a value that binary64 holds gives it back. -/
theorem roundToIntensity_intensityUnits (v : Intensity) : roundToIntensity (intensityUnits v * 2 ^ 1074) = v := by
  obtain ⟨m, k, hunits, hpattern, hm, hk⟩ := intensityUnits_cases v
  have hscale : intensityUnits v * 2 ^ 1074 = m * 2 ^ (1074 + k) := by
    rw [hunits, mul_two_pow_mul_two_pow]
  rw [hscale, roundToIntensity, roundingShift_mul_two_pow hm hk, roundHalfEven_mul_self m (Nat.two_pow_pos _),
    ← hpattern, BitVec.ofNat_toNat, BitVec.setWidth_eq]

theorem intensityUnits_fullIntensity : intensityUnits Config.fullIntensity = 2 ^ 1074 := by
  have h := intensityUnits_of_toNat_eq (z := Config.fullIntensity) (m := 2 ^ 52) (k := 1022) rfl (by decide)
    (.inr le_rfl)
  rw [h, show 1074 = 52 + 1022 from rfl, Nat.pow_add]

/-- Settles O54: rounding never passes the intensity itself, gives back a product that is the intensity, and of 0 is
0.0. -/
theorem decayNeverBrightens : Obligations.DecayNeverBrightens := by
  refine fun v f hv hf => ⟨wellFormedIntensity_intensityMul hv hf, toNat_intensityMul_le v hf, ?_,
    intensityMul_zeroIntensity v⟩
  rw [intensityMul, intensityUnits_fullIntensity, roundToIntensity_intensityUnits]

/-! ### The nearest value -/

/-- Among all binary64 values `c`, the rounded one is nearest to `n / 2^1074` units, and even where another is as near.
A `c` with at least as large an exponent is a multiple of the rounded significand's unit; one with a smaller exponent is
below the least full significand, `2^52` of those units, which is no further from `n` than `c` is. -/
theorem roundToIntensity_nearest {n : Nat} (hn : n < 2 ^ (1127 + 1022)) (c : Intensity) :
    distance n (intensityUnits (roundToIntensity n) * 2 ^ 1074) ≤ distance n (intensityUnits c * 2 ^ 1074) ∧
      (distance n (intensityUnits (roundToIntensity n) * 2 ^ 1074) = distance n (intensityUnits c * 2 ^ 1074) →
        c = roundToIntensity n ∨ (roundToIntensity n).toNat % 2 = 0) := by
  have hpattern := toNat_roundToIntensity hn
  have hunits : intensityUnits (roundToIntensity n) * 2 ^ 1074 =
      roundHalfEven n (2 ^ (1074 + roundingShift n)) * 2 ^ (1074 + roundingShift n) := by
    rw [intensityUnits_roundToIntensity hn, mul_two_pow_mul_two_pow]
  have hnearest (k : Nat) := roundHalfEven_nearest n k (Nat.two_pow_pos (1074 + roundingShift n))
  obtain ⟨m, k, hc, -, hm, -⟩ := intensityUnits_cases c
  obtain hle | hlt := le_or_gt (roundingShift n) k
  · have hmultiple : intensityUnits c * 2 ^ 1074 = m * 2 ^ (k - roundingShift n) * 2 ^ (1074 + roundingShift n) := by
      rw [hc, mul_two_pow_mul_two_pow, mul_two_pow_mul_two_pow, Nat.add_assoc, Nat.add_sub_cancel' hle]
    obtain ⟨hmin, htie⟩ := hnearest (m * 2 ^ (k - roundingShift n))
    rw [hunits, hmultiple]
    refine ⟨hmin, fun heq => (htie heq).imp (fun hsame => ?_) fun heven => ?_⟩
    · rw [← roundToIntensity_intensityUnits c, hmultiple, hsame, ← hunits, roundToIntensity_intensityUnits]
    · omega
  · have hbelow : intensityUnits c * 2 ^ 1074 < 2 ^ 52 * 2 ^ (1074 + roundingShift n) := by
      rw [hc, mul_two_pow_mul_two_pow]
      calc m * 2 ^ (1074 + k) < 2 ^ 53 * 2 ^ (1074 + k) := Nat.mul_lt_mul_of_pos_right hm (Nat.two_pow_pos _)
        _ = 2 ^ 52 * 2 ^ (1074 + k + 1) := by
          rw [← Nat.pow_add, ← Nat.pow_add, Nat.add_comm (1074 + k) 1, ← Nat.add_assoc 52]
        _ ≤ 2 ^ 52 * 2 ^ (1074 + roundingShift n) :=
          Nat.mul_le_mul_left _ (Nat.pow_le_pow_right (by decide) (by omega))
    have hfar := distance_lt_of_lt hbelow (le_of_roundingShift_ne_zero (by omega))
    obtain ⟨hmin, -⟩ := hnearest (2 ^ 52)
    rw [hunits]
    have hcloser := hmin.trans_lt hfar
    exact ⟨hcloser.le, fun heq => absurd heq hcloser.ne⟩

theorem mul_lt_two_pow {m n a b c : Nat} (hm : m ≤ 2 ^ a) (hn : n ≤ 2 ^ b) (hc : a + b < c) : m * n < 2 ^ c :=
  calc m * n ≤ 2 ^ a * 2 ^ b := Nat.mul_le_mul hm hn
    _ = 2 ^ (a + b) := (Nat.pow_add 2 a b).symm
    _ < 2 ^ c := Nat.pow_lt_pow_right (by decide) hc

/-- The exact product of two values at most 1.0 is within the range of the rounding. -/
theorem intensityUnits_mul_lt {v f : Intensity} (hv : wellFormedIntensity v = true)
    (hf : wellFormedIntensity f = true) : intensityUnits v * intensityUnits f < 2 ^ (1127 + 1022) :=
  mul_lt_two_pow (intensityUnits_le hv) (intensityUnits_le hf) (by decide)

/-- Settles O55: the model's product is the rounded exact product, and no value binary64 holds is nearer. -/
theorem intensityProductIsNearestEven : Obligations.IntensityProductIsNearestEven := by
  intro v f c hv hf _ exact err
  have herr (z : Intensity) : err z = distance (intensityUnits v * intensityUnits f) (intensityUnits z * 2 ^ 1074) := by
    simp only [err, exact, distance, Nat.cast_mul, Nat.cast_pow, Nat.cast_ofNat]
  rw [herr, herr]
  exact roundToIntensity_nearest (intensityUnits_mul_lt hv hf) c

end Sys2Proof.Machine
end

section
/-!
SUPPORT. The number of legal words (30_encoding.md R87): the rows of the opcode table are disjoint, and each selects as
many words as its mask leaves bits free.
-/

namespace Sys2Proof

/-! ### Words that agree with a pattern under a mask -/

/-- The number of bits below bit `n` that the mask leaves free. -/
def freeBits (n mask : Nat) : Nat := (List.range n).countP fun j => !mask.testBit j

theorem freeBits_succ (n mask : Nat) :
    freeBits (n + 1) mask = freeBits n (mask / 2) + if mask % 2 = 0 then 1 else 0 := by
  simp [freeBits, List.range_succ_eq_map, List.countP_cons, List.countP_map, Function.comp_def, Nat.testBit_succ]

/-- The numbers below `2 * N` are the even ones and the odd ones. -/
theorem countP_range_two_mul (q : Nat → Bool) (N : Nat) : (List.range (2 * N)).countP q =
    (List.range N).countP (fun k => q (2 * k)) + (List.range N).countP (fun k => q (2 * k + 1)) := by
  induction N with
  | zero => rfl
  | succ N ih =>
    simp only [Nat.mul_succ, List.range_succ, List.countP_append, List.countP_singleton, ih]
    omega

/-- A masked comparison is one of the lowest bits and one of the rest. -/
theorem and_eq_iff_halves {k b mask p : Nat} (hb : b < 2) :
    (2 * k + b) &&& mask = p ↔ b &&& mask % 2 = p % 2 ∧ k &&& mask / 2 = p / 2 := by
  have hlow : ((2 * k + b) &&& mask) % 2 = b &&& mask % 2 := by
    rw [← Nat.pow_one 2, Nat.and_mod_two_pow]
    congr 1
    omega
  have hhigh : ((2 * k + b) &&& mask) / 2 = k &&& mask / 2 := by
    rw [Nat.and_div_two]
    congr 1
    omega
  rw [← hlow, ← hhigh]
  omega

/-- The numbers below `2^n` that agree with a pattern under a mask: the free bits take every value. By induction on the
bits, the lowest first; it is free, or its value is the pattern's. -/
theorem countP_and_eq (n : Nat) : ∀ {mask p : Nat}, p &&& mask = p → p < 2 ^ n →
    (List.range (2 ^ n)).countP (fun k => k &&& mask == p) = 2 ^ freeBits n mask := by
  induction n with
  | zero =>
    intro mask p _ hp
    obtain rfl : p = 0 := by omega
    simp [freeBits]
  | succ n ih =>
    intro mask p hmask hp
    obtain ⟨hlow, hhigh⟩ : p % 2 &&& mask % 2 = p % 2 ∧ p / 2 &&& mask / 2 = p / 2 := by
      rwa [← and_eq_iff_halves (Nat.mod_lt p (by decide)), Nat.div_add_mod]
    have half (b : Nat) (hb : b < 2) : (List.range (2 ^ n)).countP (fun k => (2 * k + b) &&& mask == p) =
        if b &&& mask % 2 = p % 2 then 2 ^ freeBits n (mask / 2) else 0 := by
      simp only [and_eq_iff_halves hb, Bool.beq_eq_decide_eq]
      split
      · next hbit => simpa [hbit, Bool.beq_eq_decide_eq] using ih hhigh (by omega)
      · next hbit => simp [hbit]
    have heven := half 0 (by decide)
    have hodd := half 1 (by decide)
    simp only [Nat.add_zero] at heven
    rw [Nat.pow_succ', countP_range_two_mul, heven, hodd, freeBits_succ]
    obtain hm | hm := Nat.mod_two_eq_zero_or_one mask
    · have hp : p % 2 = 0 := by simpa [hm, eq_comm] using hlow
      simp [hm, hp, Nat.pow_succ, Nat.mul_two]
    · obtain hp | hp := Nat.mod_two_eq_zero_or_one p <;> simp [hm, hp]

/-! ### Disjoint rows -/

/-- Two rows whose patterns differ in a bit that both masks keep select no word in common. -/
theorem OpcodeRow.not_selects_both {r q : OpcodeRow} (h : r.pattern &&& q.mask ≠ q.pattern &&& r.mask) (w : Word) :
    ¬ (r.selects w = true ∧ q.selects w = true) := by
  rintro ⟨hr, hq⟩
  have hr : w &&& r.mask = r.pattern := beq_iff_eq.1 hr
  have hq : w &&& q.mask = q.pattern := beq_iff_eq.1 hq
  refine h ?_
  rw [← hr, ← hq, BitVec.and_assoc, BitVec.and_assoc, BitVec.and_comm r.mask]

theorem opcodeRows_pairwise_disjoint :
    opcodeRows.Pairwise fun r q => ∀ w : Word, ¬ (r.selects w = true ∧ q.selects w = true) := by
  have hdiffer : opcodeRows.Pairwise fun r q => r.pattern &&& q.mask ≠ q.pattern &&& r.mask := by decide
  exact hdiffer.imp OpcodeRow.not_selects_both

theorem countP_or_of_disjoint {α : Type} (f g : α → Bool) (l : List α) (h : ∀ a, ¬ (f a = true ∧ g a = true)) :
    l.countP (fun a => f a || g a) = l.countP f + l.countP g := by
  induction l with
  | nil => rfl
  | cons a l ih =>
    cases hf : f a with
    | false => simp [List.countP_cons, ih, hf, Nat.add_assoc]
    | true =>
      have hg : g a = false := Bool.eq_false_iff.2 fun hg => h a ⟨hf, hg⟩
      simp [ih, hf, hg, Nat.add_right_comm]

/-- Where no element satisfies two of the predicates, those that satisfy one are counted one predicate at a time. -/
theorem countP_any_of_pairwise {α β : Type} (f : β → α → Bool) (l : List α) {rs : List β}
    (hrs : rs.Pairwise fun r q => ∀ a, ¬ (f r a = true ∧ f q a = true)) :
    l.countP (fun a => rs.any fun r => f r a) = (rs.map fun r => l.countP (f r)).sum := by
  induction rs with
  | nil => simp
  | cons r rs ih =>
    obtain ⟨hr, hrs⟩ := List.pairwise_cons.1 hrs
    simp only [List.any_cons, List.map_cons, List.sum_cons, ← ih hrs]
    refine countP_or_of_disjoint _ _ l fun a ⟨ha, hany⟩ => ?_
    obtain ⟨q, hq, hqa⟩ := List.any_eq_true.1 hany
    exact hr q hq a ⟨ha, hqa⟩

/-! ### The words of a row -/

theorem OpcodeRow.selects_ofNat (r : OpcodeRow) {k : Nat} (hk : k < 2 ^ 16) :
    r.selects (BitVec.ofNat 16 k) = (k &&& r.mask.toNat == r.pattern.toNat) := by
  rw [OpcodeRow.selects, Bool.beq_eq_decide_eq, Bool.beq_eq_decide_eq]
  simp only [BitVec.toNat_eq, BitVec.toNat_and, BitVec.toNat_ofNat, Nat.mod_eq_of_lt hk]

theorem countP_selects {r : OpcodeRow} (hr : r.pattern &&& r.mask = r.pattern) :
    (List.range (2 ^ 16)).countP (fun k => r.selects (BitVec.ofNat 16 k)) = 2 ^ freeBits 16 r.mask.toNat := by
  have hr : r.pattern.toNat &&& r.mask.toNat = r.pattern.toNat := by rw [← BitVec.toNat_and, hr]
  rw [← countP_and_eq 16 hr r.pattern.isLt]
  exact List.countP_congr fun k hk => by rw [r.selects_ofNat (List.mem_range.1 hk)]

theorem countP_legalWord (l : List Nat) : l.countP (fun k => legalWord (BitVec.ofNat 16 k)) =
    (opcodeRows.map fun r => l.countP fun k => r.selects (BitVec.ofNat 16 k)).sum := by
  unfold legalWord
  refine countP_any_of_pairwise _ l (rs := opcodeRows) ?_
  exact opcodeRows_pairwise_disjoint.imp fun h k => h (BitVec.ofNat 16 k)

/-- Settles O4: the legal words are the words of the rows, counted row by row. -/
theorem opcodeRowsAreDisjointAndCounted : Obligations.OpcodeRowsAreDisjointAndCounted := by
  refine ⟨rfl, opcodeRows_pairwise_disjoint, ?_⟩
  have hkept : ∀ r ∈ opcodeRows, r.pattern &&& r.mask = r.pattern := by decide
  calc (List.range 65536).countP (fun k => legalWord (BitVec.ofNat 16 k))
      = (opcodeRows.map fun r => (List.range 65536).countP fun k => r.selects (BitVec.ofNat 16 k)).sum :=
        countP_legalWord _
    _ = (opcodeRows.map fun r => 2 ^ freeBits 16 r.mask.toNat).sum :=
        congrArg List.sum (List.map_congr_left fun r hr => countP_selects (hkept r hr))
    _ = 43954 := by decide

end Sys2Proof
end
